-- ==== Sys2Proof/Config.lean ====
section
/-!
DEFINITION. The parameters of 00_scope.md that the spec fixes for every run, and the one it names as
an implementation's choice with a default (93_implementation_defined.md U3). `STACK_CAPACITY`, the
program and the initial memory values are parameters of a RUN (10_state.md section 1) and stand in
State.
-/

namespace Sys2Proof.Config

/-- MEM_CAPACITY, the number of data memory cells (R5). -/
def memCapacity : Nat := 16384

/-- The largest program length `L`, 2^31 - 1 (R7). -/
def maxProgramLength : Nat := 2147483647

/-- The two directions in which an integer division can round (93 U3, DIV_ROUNDING). -/
inductive DivRounding where
  /-- The quotient is truncated toward zero (R93). -/
  | towardZero
  /-- The quotient is rounded toward minus infinity (the alternative that 92 D4 names). -/
  | floor
deriving DecidableEq, Repr

/-- DIV_ROUNDING at its default, the value that R93 and 92 D4 fix. -/
def divRounding : DivRounding := .towardZero

end Sys2Proof.Config
end

