-- ==== Sys2Proof/Word.lean ====
section
/-!
DEFINITION. The two word types of the machine: the 32-bit data word (00_scope.md R4) and the 8-bit
byte of a program character or an output byte (R6, 10_state.md R20).
-/

namespace Sys2Proof

/-- A stack element, a memory cell, an ALU operand or the program counter (R4, R9): 32 bits, read as
a two's-complement signed integer by `BitVec.toInt`. -/
abbrev Word := BitVec 32

/-- One program character (R6) or one output byte (R20). -/
abbrev Byte := BitVec 8

end Sys2Proof
end

