-- ==== Sys2Proof/Syntax.lean ====
section
/-!
DEFINITION. The instructions of spec/opcode_table.json and the decoder's operation tags
(30_encoding.md R62). The ten digit rows of the table are one instruction, PUSHD, whose digit is its
operand (R62, R64).
-/

namespace Sys2Proof

/-- One instruction, one constructor per mnemonic of the opcode table. -/
inductive Instr where
  /-- space, R80 -/
  | nop
  /-- a digit character, R81; `digit` is `instr[3:0]` (R64) -/
  | pushd (digit : BitVec 4)
  /-- plus, R90 -/
  | add
  /-- minus, R91 -/
  | sub
  /-- star, R92 -/
  | mul
  /-- slash, R93 -/
  | div
  /-- colon, R94 -/
  | cmp
  /-- lower-case p, R100 -/
  | prtd
  /-- upper-case P, R101 -/
  | prtc
  /-- lower-case g, R110 -/
  | jmp
  /-- question mark, R111 -/
  | jz
  /-- less-than sign, R120 -/
  | load
  /-- greater-than sign, R121 -/
  | store
  /-- caret, R130 -/
  | pick
  /-- lower-case v, R131 -/
  | roll
  /-- lower-case d, R132 -/
  | drop
  /-- lower-case c, R140 -/
  | rsvc
  /-- dollar sign, R141 -/
  | rsvd
  /-- exclamation mark, R142 -/
  | halt
deriving DecidableEq, Repr

/-- The decoder's output (R63): the tag of a mapped byte, or ILLEGAL. -/
inductive Tag where
  /-- The byte is one of the 28 mapped ones (R62). -/
  | instr (i : Instr)
  /-- ILLEGAL: every other byte, rejected by this name (R63, R67). -/
  | illegal
deriving DecidableEq, Repr

end Sys2Proof
end

