-- ==== Sys2Proof/Machine/State.lean ====
section
/-!
DEFINITION. The architectural state (10_state.md section 1), the run results (60_exceptions.md
R150), the reasons a step can stop, and the state right after reset.
-/

namespace Sys2Proof.Machine

/-- The closed set of run results (R150), in the order of their codes. -/
inductive RunResult where
  /-- 0: halt instruction, or `pc == L` at fetch -/
  | ok
  /-- 1: `pc < 0` or `pc > L` at fetch -/
  | programCounterOutOfBounds
  /-- 2: the byte at `pc` is not mapped -/
  | unknownInstruction
  /-- 3: pop with depth 0 -/
  | emptyStack
  /-- 4: peek or rotate with an out-of-range depth -/
  | invalidStackIndex
  /-- 5: divisor 0 -/
  | divisionByZero
  /-- 6: address outside `[0, 16384)` -/
  | invalidMemoryAddress
  /-- 7: push with `depth == STACK_CAPACITY` -/
  | allocationFailure
deriving DecidableEq, Repr

/-- The status register (R19). -/
inductive Status where
  /-- The run goes on. -/
  | running
  /-- The run has ended with this result. -/
  | halted (result : RunResult)
deriving DecidableEq, Repr

/-- `STACK_CAPACITY` (R8): a number of storage cells, or unbounded. -/
inductive StackCapacity where
  /-- No bound. -/
  | unbounded
  /-- So many cells (a positive number, R8). -/
  | cells (n : Nat)
deriving DecidableEq, Repr

/-- Data memory (R40): pairs of a cell's index and its word, indices strictly rising, no word zero.
An unlisted cell reads as zero, what R47 fills memory with. Keyed by cell, since a cell is the only
unit of access and no byte order exists (R40, R45); log entry 1. -/
abbrev Memory := List (Nat × Word)

/-- Everything the spec gives one run of the machine (10_state.md section 1), and the run's own
parameters, which no step changes. -/
structure State where
  /-- `S[0 .. depth-1]`, position 0 the bottom (R11); its length is the depth counter (R12). -/
  stack : List Word
  /-- The program counter, signed (R18). -/
  pc : Word
  /-- The status register (R19). -/
  status : Status
  /-- Data memory (R40). -/
  mem : Memory
  /-- The output bytes of the run, first byte first (R20). -/
  out : List Byte
  /-- The program store `prog[0 .. L-1]` (R17), a parameter of the run. -/
  prog : List Byte
  /-- `STACK_CAPACITY` (R8), a parameter of the run. -/
  stackCapacity : StackCapacity
deriving DecidableEq, Repr

/-- The reasons the machine has no next step. An error of R150 is none of them: it is a next state
with the status Halted (R153). -/
inductive Fault where
  /-- Raised by `step` alone, when the run has already ended with this result: a state whose status
  is Halted has no step and is final (R30, R32). Safe: the machine does nothing there. -/
  | noStep (result : RunResult)
deriving DecidableEq, Repr

/-- The reasons the model gives an instruction no meaning. -/
inductive Refusal where
  /-- Raised by an arm of `exec` for an instruction that has no meaning yet; no arm does. Safe. -/
  | notModelled (mnemonic : String)
deriving DecidableEq, Repr

/-- What a meaning answers. -/
abbrev Result := Host.Outcome State Fault Refusal

/-- The state with another operand stack. -/
def State.withStack (s : State) (stack : List Word) : State := { s with stack := stack }

/-- The state with another program counter. -/
def State.withPc (s : State) (pc : Word) : State := { s with pc := pc }

/-- The state with another status. -/
def State.withStatus (s : State) (status : Status) : State := { s with status := status }

/-- The state with another data memory. -/
def State.withMem (s : State) (mem : Memory) : State := { s with mem := mem }

/-- The state with other output bytes. -/
def State.withOut (s : State) (out : List Byte) : State := { s with out := out }

/-- The start of a run (R35-R39, R180) whose parameters are: no program, no initial memory value,
unbounded stack storage. DESIGN CHOICE, unsafe: the three parameters (log entries 3, 4, 5); the spec
states the other values. `startRun` of Machine/Ops.lean is the start of any run. -/
def State.reset : State where
  stack := []
  pc := 0#32
  status := .running
  mem := []
  out := []
  prog := []
  stackCapacity := .unbounded

end Sys2Proof.Machine
end

