-- ==== Sys2Proof/Machine/Ops.lean ====
section
/-!
DEFINITION. The named operations of the spec: raising a result (00_scope.md section 5, 60_exceptions.md
R153), the default pc advance (10_state.md R31), the stack primitives (R24-R27), the memory
primitives (20_memory.md R41-R43, R47), output (R163), and the start of a run (R180).

A primitive that can raise takes the rest of its instruction as its last argument, so that raising
ends the instruction with the state as it stands: what earlier pops consumed stays consumed (R154).
-/

namespace Sys2Proof.Machine

/-- `w32(v)` of 00_scope.md section 5: an integer wrapped to 32 bits. -/
def w32 (v : Int) : Word := BitVec.ofInt 32 v

/-! ## Ending a run, and going on -/

/-- `raise E` (R153), the one operation that takes an exception: the status becomes Halted(E), and
`pc`, memory, output and what remains of the stack keep their values. `halt` is `raise Ok`. There is
no handler, no saved state and no return (R150, R158). -/
def raise (result : RunResult) (s : State) : Result := .next (s.withStatus (.halted result))

/-- The default pc advance (R31). -/
def advance (s : State) : Result := .next (s.withPc (w32 (s.pc.toInt + 1)))

/-- The write of `pc` by a taken jump, which includes the loop's +1 (R110, R111). -/
def jumpBy (offset : Word) (s : State) : Result :=
  .next (s.withPc (w32 (s.pc.toInt + offset.toInt + 1)))

/-! ## Operand stack -/

/-- The depth counter (R12). -/
def State.depth (s : State) : Nat := s.stack.length

/-- `depth == STACK_CAPACITY`, never so for unbounded storage (R24). -/
def StackCapacity.isFull (capacity : StackCapacity) (depth : Nat) : Bool :=
  match capacity with
  | .unbounded => false
  | .cells n => decide (depth = n)

/-- `0 <= depth <= STACK_CAPACITY`, the invariant of R12. -/
def StackCapacity.admits (capacity : StackCapacity) (depth : Nat) : Bool :=
  match capacity with
  | .unbounded => true
  | .cells n => decide (depth ≤ n)

/-- A capacity is a positive number or unbounded (R8). -/
def StackCapacity.isPositive : StackCapacity → Bool
  | .unbounded => true
  | .cells n => decide (0 < n)

/-- `Push(v)` (R24). -/
def push (v : Word) (s : State) (rest : State → Result) : Result :=
  if s.stackCapacity.isFull s.depth then raise .allocationFailure s
  else rest (s.withStack (s.stack ++ [v]))

/-- `Pop()` (R25). -/
def pop (s : State) (rest : Word → State → Result) : Result :=
  match s.stack.getLast? with
  | none => raise .emptyStack s
  | some v => rest v (s.withStack s.stack.dropLast)

/-- `0 <= k < depth` with `k` signed (R26; 90_conflicts.md C3). -/
def validIndex (k : Word) (depth : Nat) : Bool := decide (0 ≤ k.toInt ∧ k.toInt < depth)

/-- The absolute position of the element at depth `k`, `depth - 1 - k` (R13). -/
def positionAt (k : Word) (depth : Nat) : Nat := depth - 1 - k.toNat

/-- The element at depth `k` of a stack (R13); used only for a valid index. -/
def elementAt (k : Word) (stack : List Word) : Word := stack.getD (positionAt k stack.length) 0#32

/-- A stack with the element at depth `k` removed and appended as the new top (R27). -/
def rotated (k : Word) (stack : List Word) : List Word :=
  stack.eraseIdx (positionAt k stack.length) ++ [elementAt k stack]

/-- `Peek(k)` (R26). -/
def peek (k : Word) (s : State) (rest : Word → Result) : Result :=
  if validIndex k s.depth then rest (elementAt k s.stack) else raise .invalidStackIndex s

/-- `RotateToTop(k)` (R27). -/
def rotateToTop (k : Word) (s : State) (rest : State → Result) : Result :=
  if validIndex k s.depth then rest (s.withStack (rotated k s.stack))
  else raise .invalidStackIndex s

/-! ## Data memory -/

/-- The word of cell `a` (R42): zero where nothing is listed (R47). -/
def Memory.read : Memory → Nat → Word
  | [], _ => 0#32
  | (b, w) :: m, a => if a = b then w else Memory.read m a

/-- The memory with cell `a` holding `v` (R43), in canonical form: a zero cell is not listed. -/
def Memory.write : Memory → Nat → Word → Memory
  | [], a, v => if v = 0#32 then [] else [(a, v)]
  | (b, w) :: m, a, v =>
    if a < b then (if v = 0#32 then (b, w) :: m else (a, v) :: (b, w) :: m)
    else if a = b then (if v = 0#32 then m else (a, v) :: m)
    else (b, w) :: Memory.write m a v

/-- The canonical form from cell `lo` on: indices strictly rising, at least `lo`, inside the 16384
cells of R40, and no zero word listed. -/
def Memory.wfFrom : Nat → Memory → Bool
  | _, [] => true
  | lo, (a, v) :: m =>
    decide (lo ≤ a) && decide (a < Config.memCapacity) && decide (v ≠ 0#32) && Memory.wfFrom (a + 1) m

/-- The canonical form of a data memory: two memories of this form whose cells all read the same are
the same list. -/
def Memory.wf (m : Memory) : Bool := Memory.wfFrom 0 m

/-- The cells from `a` on set to the values of a list, zero values unlisted. -/
def initMemoryFrom : Nat → List Word → Memory
  | _, [] => []
  | a, v :: vs => if v = 0#32 then initMemoryFrom (a + 1) vs else (a, v) :: initMemoryFrom (a + 1) vs

/-- `InitMemory` (R47): the first 16384 supplied values from cell 0 on, then zeros. -/
def initMemory (values : List Word) : Memory := initMemoryFrom 0 (values.take Config.memCapacity)

/-- The address check (R41), on the signed word. -/
def validAddress (a : Word) : Bool := decide (0 ≤ a.toInt ∧ a.toInt < Config.memCapacity)

/-- The cell that a valid address word names, `mem_addr = a[13:0]` (R41). -/
def cellPort (a : Word) : BitVec 14 := a.extractLsb' 0 14

/-- The address check, then `MemRead(a, 1)` (R41, R42). -/
def memRead (a : Word) (s : State) (rest : Word → Result) : Result :=
  if validAddress a then rest (s.mem.read (cellPort a).toNat) else raise .invalidMemoryAddress s

/-- The address check, then `MemWrite(a, 1, v)` (R41, R43). -/
def memWrite (a v : Word) (s : State) (rest : State → Result) : Result :=
  if validAddress a then rest (s.withMem (s.mem.write (cellPort a).toNat v))
  else raise .invalidMemoryAddress s

/-! ## Output -/

/-- `OutWrite(bytes)` (R163): appended in order. -/
def outWrite (bytes : List Byte) (s : State) : State := s.withOut (s.out ++ bytes)

/-! ## Start of a run -/

/-- The start action (R180): every piece of state at its start value (R35-R39, R47), for the
program, the initial memory values and the capacity the host gives the run (R168, R182). The source's
`memory_length` is the length of the list of values (92 D17). -/
def startRun (program : List Byte) (initialValues : List Word) (capacity : StackCapacity) : State where
  stack := []
  pc := 0#32
  status := .running
  mem := initMemory initialValues
  out := []
  prog := program
  stackCapacity := capacity

end Sys2Proof.Machine
end

