-- ==== Sys2Proof/Machine/Flags.lean ====
section
/-!
DEFINITION. The machine has no flags (10_state.md R21): what stands for them is the comparison result
that `:` pushes and the test of a popped word that `?` makes. Here too are the bits of the status
register (R19) and the codes of the run results (60_exceptions.md R150).
-/

namespace Sys2Proof.Machine

/-- The result of `:` (R94): -1, 0 or 1 by the exact signed comparison. -/
def compareWords (a b : Word) : Word :=
  if a.toInt < b.toInt then w32 (-1) else if a.toInt = b.toInt then w32 0 else w32 1

/-- The condition of `?` (R111): only zero jumps. -/
def isZero (b : Word) : Bool := decide (b.toInt = 0)

/-- The 3-bit code of a run result (R150). -/
def resultCode : RunResult → BitVec 3
  | .ok => 0#3
  | .programCounterOutOfBounds => 1#3
  | .unknownInstruction => 2#3
  | .emptyStack => 3#3
  | .invalidStackIndex => 4#3
  | .divisionByZero => 5#3
  | .invalidMemoryAddress => 6#3
  | .allocationFailure => 7#3

/-- The 4 bits of the status register (R19): bit 3 halted, bits 2..0 the code, Running 0b0000. -/
def statusBits : Status → BitVec 4
  | .running => 0#4
  | .halted result => 1#1 ++ resultCode result

end Sys2Proof.Machine
end

