-- ==== Sys2Proof/Machine/Operands.lean ====
section
/-!
DEFINITION. Every operand form of 30_encoding.md R64 and R65: the digit immediate, one pop, and two
pops under their two namings. The pops run in the order listed, each checked before the next (R155).
-/

namespace Sys2Proof.Machine

/-- The digit immediate, `zext_32(instr[3:0])` (R64). -/
def digitValue (digit : BitVec 4) : Word := digit.zeroExtend 32

/-- The one-pop form of `p P g < ^ v d`: `a` is the top (R65). -/
def popTop (s : State) (rest : (a : Word) → State → Result) : Result := pop s rest

/-- The form of `+ - * / :`: the first pop is the right operand `b`, the second the left operand `a`
(R65). -/
def popLeftRight (s : State) (rest : (a b : Word) → State → Result) : Result :=
  pop s fun b s => pop s fun a s => rest a b s

/-- The form of `?` and `>`: the first pop is `a` (offset or address), the second `b` (condition or
value) (R65; 90_conflicts.md C2). -/
def popTopSecond (s : State) (rest : (a b : Word) → State → Result) : Result :=
  pop s fun a s => pop s fun b s => rest a b s

end Sys2Proof.Machine
end

