-- ==== Sys2Proof/Machine/Alu.lean ====
section
/-!
DEFINITION. 41_alu.md: the binary operations of the stack ALU. A result is computed on exact
integers and wrapped to 32 bits once (R89). No operation sets a flag (R21).
-/

namespace Sys2Proof.Machine

/-- `w32(a + b)` (R90). -/
def aluAdd (a b : Word) : Word := w32 (a.toInt + b.toInt)

/-- `w32(a - b)` (R91). -/
def aluSub (a b : Word) : Word := w32 (a.toInt - b.toInt)

/-- `w32(a * b)` (R92). -/
def aluMul (a b : Word) : Word := w32 (a.toInt * b.toInt)

/-- The exact quotient of `a` by a non-zero `b`. Truncated toward zero it is
`sign(a) * sign(b) * floor(|a| / |b|)` (R93); 93 U3 names the direction as a parameter. -/
def quotient (rounding : Config.DivRounding) (a b : Int) : Int :=
  match rounding with
  | .towardZero => a.sign * b.sign * ((a.natAbs / b.natAbs : Nat) : Int)
  | .floor => Int.fdiv a b

/-- `w32(q)` (R93); used only for a non-zero `b`. -/
def aluDiv (a b : Word) : Word := w32 (quotient Config.divRounding a.toInt b.toInt)

/-- A binary operation that cannot fail once its operands are popped: pop b, pop a, push (R89). -/
def binary (f : Word → Word → Word) (s : State) : Result :=
  popLeftRight s fun a b s => push (f a b) s advance

/-- ADD, `+` (R90). -/
def execAdd (s : State) : Result := binary aluAdd s

/-- SUB, `-` (R91). -/
def execSub (s : State) : Result := binary aluSub s

/-- MUL, `*` (R92). -/
def execMul (s : State) : Result := binary aluMul s

/-- DIV, `/` (R93): the divisor is tested after both pops (R155). -/
def execDiv (s : State) : Result :=
  popLeftRight s fun a b s =>
    if isZero b then raise .divisionByZero s else push (aluDiv a b) s advance

/-- CMP, `:` (R94). -/
def execCmp (s : State) : Result := binary compareWords s

end Sys2Proof.Machine
end

