-- ==== Sys2Proof/Machine/Control.lean ====
section
/-!
DEFINITION. 43_control.md: the two relative jumps. An out-of-range target is an error of the next
fetch, not of the jump (R110).
-/

namespace Sys2Proof.Machine

/-- JMP, `g` (R110). -/
def execJmp (s : State) : Result := popTop s fun a s => jumpBy a s

/-- JZ, `?` (R111): both operands are consumed whether or not the jump is taken. -/
def execJz (s : State) : Result :=
  popTopSecond s fun a b s => if isZero b then jumpBy a s else advance s

end Sys2Proof.Machine
end

