-- ==== Sys2Proof/Machine/Literal.lean ====
section
/-!
DEFINITION. 40_literal_nop.md: the no-op and the digit push.
-/

namespace Sys2Proof.Machine

/-- NOP, space (R80). -/
def execNop (s : State) : Result := advance s

/-- PUSHD, `0` to `9` (R81). -/
def execPushd (digit : BitVec 4) (s : State) : Result := push (digitValue digit) s advance

end Sys2Proof.Machine
end

