-- ==== Sys2Proof/Machine/MemoryOps.lean ====
section
/-!
DEFINITION. 44_memory_ops.md: load and store of one whole cell.
-/

namespace Sys2Proof.Machine

/-- LOAD, `<` (R120). -/
def execLoad (s : State) : Result :=
  popTop s fun a s => memRead a s fun v => push v s advance

/-- STORE, `>` (R121): the address is checked after both pops (R155). -/
def execStore (s : State) : Result :=
  popTopSecond s fun a b s => memWrite a b s advance

end Sys2Proof.Machine
end

