-- ==== Sys2Proof/Machine/Output.lean ====
section
/-!
DEFINITION. 42_output.md: the two output instructions and the byte string of a word.
-/

namespace Sys2Proof.Machine

/-- The byte of a decimal digit, `0x30 + digit` (R100). -/
def digitByte (digit : Nat) : Byte := BitVec.ofNat 8 (0x30 + digit)

/-- The decimal digits of `n`, most significant first, no leading zero, "0" for zero, of a number of
at most `fuel` digits. -/
def decimalDigits : Nat → Nat → List Byte
  | 0, _ => []
  | fuel + 1, n =>
    if n < 10 then [digitByte n] else decimalDigits fuel (n / 10) ++ [digitByte (n % 10)]

/-- `Dec(a)` (R100). The magnitude is at most 2^31, a number of ten digits. -/
def decimal (a : Word) : List Byte :=
  let digits := decimalDigits 10 a.toInt.natAbs
  if a.toInt < 0 then 0x2D#8 :: digits else digits

/-- `a[7:0]`, the residue of `a` modulo 256 (R101). -/
def lowByte (a : Word) : Byte := a.extractLsb' 0 8

/-- PRTD, `p` (R100). -/
def execPrtd (s : State) : Result := popTop s fun a s => advance (outWrite (decimal a) s)

/-- PRTC, `P` (R101). -/
def execPrtc (s : State) : Result := popTop s fun a s => advance (outWrite [lowByte a] s)

end Sys2Proof.Machine
end

