-- ==== Sys2Proof/Machine/StackOps.lean ====
section
/-!
DEFINITION. 45_stack_ops.md: pick, rotate and drop. The index is popped first and names a depth of
the stack as that pop left it (10_state.md R13).
-/

namespace Sys2Proof.Machine

/-- PICK, `^` (R130). -/
def execPick (s : State) : Result :=
  popTop s fun a s => peek a s fun v => push v s advance

/-- ROLL, `v` (R131). -/
def execRoll (s : State) : Result := popTop s fun a s => rotateToTop a s advance

/-- DROP, `d` (R132). -/
def execDrop (s : State) : Result := popTop s fun _ s => advance s

end Sys2Proof.Machine
end

