-- ==== Sys2Proof/Machine/System.lean ====
section
/-!
DEFINITION. 46_reserved_halt.md: the reserved no-ops, halt, and the unknown instruction.
-/

namespace Sys2Proof.Machine

/-- RSVC, `c` (R140): a no-op and nothing else (R66). -/
def execRsvc (s : State) : Result := advance s

/-- RSVD, `$` (R141): a no-op and nothing else (R66). -/
def execRsvd (s : State) : Result := advance s

/-- HALT, `!` (R142). -/
def execHalt (s : State) : Result := raise .ok s

/-- ILLEGAL, every byte R62 does not map (R143). It has no row in the opcode table, so it is no
constructor of Instr: the step runs it where the decoder answers `Tag.illegal`. -/
def execIllegal (s : State) : Result := raise .unknownInstruction s

end Sys2Proof.Machine
end

