-- ==== Sys2Proof/Machine/Dispatch.lean ====
section
/-!
DEFINITION. `Execute(op)` of 10_state.md R30 with the pc advance of R31: one arm per instruction, one
meaning each.
-/

namespace Sys2Proof.Machine

/-- Runs one instruction, the default pc advance included. -/
def exec (i : Instr) (s : State) : Host.Outcome State Fault Refusal :=
  match i with
  | .nop => Sys2Proof.Machine.execNop s
  | .pushd digit => Sys2Proof.Machine.execPushd digit s
  | .add => Sys2Proof.Machine.execAdd s
  | .sub => Sys2Proof.Machine.execSub s
  | .mul => Sys2Proof.Machine.execMul s
  | .div => Sys2Proof.Machine.execDiv s
  | .cmp => Sys2Proof.Machine.execCmp s
  | .prtd => Sys2Proof.Machine.execPrtd s
  | .prtc => Sys2Proof.Machine.execPrtc s
  | .jmp => Sys2Proof.Machine.execJmp s
  | .jz => Sys2Proof.Machine.execJz s
  | .load => Sys2Proof.Machine.execLoad s
  | .store => Sys2Proof.Machine.execStore s
  | .pick => Sys2Proof.Machine.execPick s
  | .roll => Sys2Proof.Machine.execRoll s
  | .drop => Sys2Proof.Machine.execDrop s
  | .rsvc => Sys2Proof.Machine.execRsvc s
  | .rsvd => Sys2Proof.Machine.execRsvd s
  | .halt => Sys2Proof.Machine.execHalt s

end Sys2Proof.Machine
end

