-- ==== Sys2Proof/WellFormed.lean ====
section
/-!
DEFINITION. Which instruction terms an encoding exists for: a digit is 0 to 9 (30_encoding.md R64).
-/

namespace Sys2Proof

/-- An instruction that some byte of R62 stands for. The one check: the operand of a digit push is a
decimal digit (R60: "`instr[3:0] = d` with `d` in 0..9"). -/
def Instr.wellFormed : Instr → Bool
  | .pushd d => decide (d.toNat ≤ 9)
  | .nop | .add | .sub | .mul | .div | .cmp | .prtd | .prtc | .jmp | .jz | .load | .store
  | .pick | .roll | .drop | .rsvc | .rsvd | .halt => true

end Sys2Proof
end

