-- ==== Sys2Proof/Decode.lean ====
section
/-!
DEFINITION. The decoder (30_encoding.md R62, R63), total on all 256 bytes, and the encoder, written
from the same opcode map.
-/

namespace Sys2Proof

/-- `instr[3:0]` of R64: the low nibble of the instruction byte. -/
def digitField (instr : Byte) : BitVec 4 := instr.extractLsb' 0 4

/-- `Decode` of R63: the tag of an instruction byte, a function of its 8 bits alone. -/
def decode (instr : Byte) : Tag :=
  if 0x30#8 ≤ instr ∧ instr ≤ 0x39#8 then .instr (.pushd (digitField instr)) else
  match instr.toNat with
  | 0x20 => .instr .nop
  | 0x2B => .instr .add
  | 0x2D => .instr .sub
  | 0x2A => .instr .mul
  | 0x2F => .instr .div
  | 0x3A => .instr .cmp
  | 0x70 => .instr .prtd
  | 0x50 => .instr .prtc
  | 0x67 => .instr .jmp
  | 0x3F => .instr .jz
  | 0x3C => .instr .load
  | 0x3E => .instr .store
  | 0x5E => .instr .pick
  | 0x76 => .instr .roll
  | 0x64 => .instr .drop
  | 0x63 => .instr .rsvc
  | 0x24 => .instr .rsvd
  | 0x21 => .instr .halt
  | _ => .illegal

/-- The instruction byte of the opcode map (R62). A digit's byte has 0b0011 in its high nibble and
the digit in its low one (R60). -/
def encode : Instr → Byte
  | .nop => 0x20#8
  | .pushd d => 0x3#4 ++ d
  | .add => 0x2B#8
  | .sub => 0x2D#8
  | .mul => 0x2A#8
  | .div => 0x2F#8
  | .cmp => 0x3A#8
  | .prtd => 0x70#8
  | .prtc => 0x50#8
  | .jmp => 0x67#8
  | .jz => 0x3F#8
  | .load => 0x3C#8
  | .store => 0x3E#8
  | .pick => 0x5E#8
  | .roll => 0x76#8
  | .drop => 0x64#8
  | .rsvc => 0x63#8
  | .rsvd => 0x24#8
  | .halt => 0x21#8

/-- The instruction a tag carries, none for ILLEGAL. -/
def Tag.instr? : Tag → Option Instr
  | .instr i => some i
  | .illegal => none

/-- What the decoder reads from an instruction whose bits, numbered as the opcode table numbers
them, are `w`. Every instruction is exactly one byte (R60, R68), so no other width is one. -/
def decodeTableWord (nbits w : Nat) : Option Instr :=
  if nbits = 8 then (decode (BitVec.ofNat 8 w)).instr? else none

end Sys2Proof
end

