-- ==== Sys2Proof/Machine/Sequencer.lean ====
section
/-!
DEFINITION. The sequencer's part of a step before the instruction runs (10_state.md R30): the range
check of `pc` and the fetch; and what placing one byte where the next fetch reads it takes.
-/

namespace Sys2Proof.Machine

/-- What the sequencer finds before it runs an instruction. -/
inductive Fetched where
  /-- The end-of-run check ends the run with this result. -/
  | ended (result : RunResult)
  /-- The instruction byte `prog[pc]`. -/
  | byte (instr : Byte)
deriving DecidableEq, Repr

/-- The program length `L` (R7, R17). -/
def State.programLength (s : State) : Nat := s.prog.length

/-- The check of `pc` against `[0, L)`, then the fetch of `prog[pc]` (R30). -/
def fetch (s : State) : Fetched :=
  if s.pc.toInt = s.programLength then .ended .ok
  else if s.pc.toInt < 0 ∨ (s.programLength : Int) < s.pc.toInt then
    .ended .programCounterOutOfBounds
  else .byte (s.prog.getD s.pc.toNat 0#8)

/-- The program with `instr` at index `i`, for an `i` of at most the program's length. -/
def placeByte (program : List Byte) (i : Nat) (instr : Byte) : List Byte :=
  program.take i ++ [instr] ++ program.drop (i + 1)

/-- A running state whose next step fetches `instr`: the byte is placed at `pc` where that is an
index of the program or the index right after it; elsewhere no program has a byte at `pc`, and the
byte is placed at the entry point, index 0 (R35). -/
def placeAtFetch (s : State) (instr : Byte) : State :=
  if 0 ≤ s.pc.toInt ∧ s.pc.toInt ≤ s.programLength ∧ s.pc.toNat < Config.maxProgramLength then
    { s with status := .running, prog := placeByte s.prog s.pc.toNat instr }
  else { s with status := .running, pc := 0#32, prog := placeByte s.prog 0 instr }

end Sys2Proof.Machine
end

