-- ==== Sys2Proof/Machine/Step.lean ====
section
/-!
DEFINITION. One step of the machine (10_state.md R30): the sequencer's check and fetch, the decoder,
and the instruction.
-/

namespace Sys2Proof.Machine

/-- `Step()` of R30. A state whose status is Halted has no step (R32). An end-of-run check is a step
of its own that changes only the status. -/
def step (s : State) : Host.Outcome State Fault Refusal :=
  match s.status with
  | .halted result => .fault (.noStep result)
  | .running =>
    match fetch s with
    | .ended result => raise result s
    | .byte instr =>
      match decode instr with
      | .instr i => exec i s
      | .illegal => execIllegal s

/-- `s` with the instruction byte `w` where the next step fetches it. A program is loaded from
outside the machine, before the run (R17, R168, R182): this stands for that load (log entry 4). -/
def State.withFetchWord (s : State) (_nbits w : Nat) : State := placeAtFetch s (BitVec.ofNat 8 w)

end Sys2Proof.Machine
end

