-- ==== Sys2Proof/Machine/Ports.lean ====
section
/-!
DEFINITION. The block seen from its ports (10_state.md R14, R15), driven by the dispatch table of
30_encoding.md R70 instead of the pseudocode of the instruction rules: for a tag, how many operands
are popped, which check follows, what the stack becomes, which memory and output request is made and
which the next pc is. `commit` is what the sequencer and the environment then do (R15). R70 says that
the table adds nothing to the instruction rules: that the two descriptions agree is a statement about
this file. `PortRun` is a whole run at the ports: the sequencer asserts `start` for the step before the
first `issue` (70_reset_and_hazards.md R180). A signal that R14 calls valid only under another is present only then (log entry 13).
-/

namespace Sys2Proof.Machine

/-- The block's inputs in one step (R14). `start` is asserted for a step of its own (R180), which
`PortRun.input` drives before the first `issue`. -/
inductive BlockIn where
  /-- `start` = 1. -/
  | start
  /-- `start` = 0 and `issue` = 0. -/
  | idle
  /-- `issue` = 1, with `instr`, `pc` and `mem_rdata`. -/
  | issue (instr : Byte) (pc memRdata : Word)
deriving DecidableEq, Repr

/-- The memory request of one step: `mem_re`, `mem_we`, `mem_addr` and `mem_wdata` (R14). -/
inductive MemRequest where
  /-- `mem_re` = 0 and `mem_we` = 0. -/
  | idle
  /-- `mem_re` = 1. -/
  | read (memAddr : BitVec 14)
  /-- `mem_we` = 1. -/
  | write (memAddr : BitVec 14) (memWdata : Word)
deriving DecidableEq, Repr

/-- The block's outputs in a step that issues an instruction (R14). -/
structure BlockOut where
  /-- `pc_next` -/
  pcNext : Word
  /-- The memory request. -/
  mem : MemRequest
  /-- `out_bytes[0 .. out_len-1]` -/
  outBytes : List Byte
  /-- `code` while `done` is 1, none while it is 0. -/
  result : Option RunResult
deriving DecidableEq, Repr

/-- `mem_re` (R14). -/
def BlockOut.memRe (o : BlockOut) : Bool :=
  match o.mem with
  | .read _ => true
  | .idle | .write _ _ => false

/-- `mem_we` (R14). -/
def BlockOut.memWe (o : BlockOut) : Bool :=
  match o.mem with
  | .write _ _ => true
  | .idle | .read _ => false

/-- `mem_addr`, 14 bits, while `mem_re` or `mem_we` is 1 (R14). -/
def BlockOut.memAddr (o : BlockOut) : Option (BitVec 14) :=
  match o.mem with
  | .read a | .write a _ => some a
  | .idle => none

/-- `mem_wdata` while `mem_we` is 1 (R14). -/
def BlockOut.memWdata (o : BlockOut) : Option Word :=
  match o.mem with
  | .write _ v => some v
  | .idle | .read _ => none

/-- `out_len`, 4 bits (R14). -/
def BlockOut.outLen (o : BlockOut) : BitVec 4 := BitVec.ofNat 4 o.outBytes.length

/-- `done` (R14). -/
def BlockOut.done (o : BlockOut) : Bool := o.result.isSome

/-- `code`, 3 bits, while `done` is 1 (R14). -/
def BlockOut.code (o : BlockOut) : Option (BitVec 3) := o.result.map resultCode

/-! ## The dispatch table of R70, column by column

`x` is the word popped first (the top), `y` the word popped second, `rest` the stack after the pops. -/

/-- Column "pops": how many. -/
def tagPops : Tag → Nat
  | .instr i =>
    match i with
    | .add | .sub | .mul | .div | .cmp | .jz | .store => 2
    | .prtd | .prtc | .jmp | .load | .pick | .roll | .drop => 1
    | .nop | .pushd _ | .rsvc | .rsvd | .halt => 0
  | .illegal => 0

/-- Columns "check after pops" and "done/code": the result of the instruction when it ends the run. -/
def tagCheck (t : Tag) (capacity : StackCapacity) (x : Word) (rest : List Word) : Option RunResult :=
  match t with
  | .instr i =>
    match i with
    | .pushd _ => if capacity.isFull rest.length then some .allocationFailure else none
    | .div => if x = 0#32 then some .divisionByZero else none
    | .load | .store => if validAddress x then none else some .invalidMemoryAddress
    | .pick | .roll => if validIndex x rest.length then none else some .invalidStackIndex
    | .halt => some .ok
    | .nop | .add | .sub | .mul | .cmp | .prtd | .prtc | .jmp | .jz | .drop | .rsvc | .rsvd => none
  | .illegal => some .unknownInstruction

/-- Column "push": the stack the instruction leaves when it does not end the run. -/
def tagStack (t : Tag) (x y memRdata : Word) (rest : List Word) : List Word :=
  match t with
  | .instr i =>
    match i with
    | .pushd d => rest ++ [digitValue d]
    | .add => rest ++ [aluAdd y x]
    | .sub => rest ++ [aluSub y x]
    | .mul => rest ++ [aluMul y x]
    | .div => rest ++ [aluDiv y x]
    | .cmp => rest ++ [compareWords y x]
    | .load => rest ++ [memRdata]
    | .pick => rest ++ [elementAt x rest]
    | .roll => rotated x rest
    | .nop | .prtd | .prtc | .jmp | .jz | .store | .drop | .rsvc | .rsvd | .halt => rest
  | .illegal => rest

/-- Column "memory". -/
def tagMem (t : Tag) (x y : Word) : MemRequest :=
  match t with
  | .instr i =>
    match i with
    | .load => .read (cellPort x)
    | .store => .write (cellPort x) y
    | .nop | .pushd _ | .add | .sub | .mul | .div | .cmp | .prtd | .prtc | .jmp | .jz | .pick
    | .roll | .drop | .rsvc | .rsvd | .halt => .idle
  | .illegal => .idle

/-- Column "output". -/
def tagOut (t : Tag) (x : Word) : List Byte :=
  match t with
  | .instr i =>
    match i with
    | .prtd => decimal x
    | .prtc => [lowByte x]
    | .nop | .pushd _ | .add | .sub | .mul | .div | .cmp | .jmp | .jz | .load | .store | .pick
    | .roll | .drop | .rsvc | .rsvd | .halt => []
  | .illegal => []

/-- Column "pc_next" of an instruction that does not end the run. -/
def tagPcNext (t : Tag) (pc x y : Word) : Word :=
  match t with
  | .instr i =>
    match i with
    | .jmp => w32 (pc.toInt + x.toInt + 1)
    | .jz => if y = 0#32 then w32 (pc.toInt + x.toInt + 1) else w32 (pc.toInt + 1)
    | .nop | .pushd _ | .add | .sub | .mul | .div | .cmp | .prtd | .prtc | .load | .store | .pick
    | .roll | .drop | .rsvc | .rsvd => w32 (pc.toInt + 1)
    | .halt => pc
  | .illegal => pc

/-- The outputs of an instruction that ends the run: no request, `pc_next = pc`, `done` with the
result (R153). -/
def endedOut (pc : Word) (result : RunResult) : BlockOut :=
  { pcNext := pc, mem := .idle, outBytes := [], result := some result }

/-- One step of the block (R15): its outputs while an instruction is issued, and its next stack.
`stack` is the block's state `S[0 .. depth-1]`; `start` clears the depth counter (R36); nothing
changes in an idle step. -/
def block (capacity : StackCapacity) (input : BlockIn) (stack : List Word) :
    Option BlockOut × List Word :=
  match input with
  | .start => (none, [])
  | .idle => (none, stack)
  | .issue instr pc memRdata =>
    let t := decode instr
    if stack.length < tagPops t then (some (endedOut pc .emptyStack), [])
    else
      let x := stack.getLast?.getD 0#32
      let y := stack.dropLast.getLast?.getD 0#32
      let rest := stack.take (stack.length - tagPops t)
      match tagCheck t capacity x rest with
      | some result => (some (endedOut pc result), rest)
      | none =>
        (some { pcNext := tagPcNext t pc x y, mem := tagMem t x y, outBytes := tagOut t x, result := none },
          tagStack t x y memRdata rest)

/-- What the environment puts on `mem_rdata` for a request (R14, R42): the cell read. It drives the
port only while `mem_re` is 1. -/
def busDrives (mem : Memory) (o : BlockOut) (memRdata : Word) : Bool :=
  match o.mem with
  | .read a => decide (memRdata = mem.read a.toNat)
  | .idle | .write _ _ => true

/-- What the sequencer and the environment do with the block's outputs (R15): `pc` or `status`, the
output bytes appended, the memory write performed. -/
def commit (s : State) (o : BlockOut) (stack : List Word) : State :=
  { s with
    stack := stack
    pc := if o.done then s.pc else o.pcNext
    status := match o.result with
      | some result => .halted result
      | none => s.status
    out := s.out ++ o.outBytes
    mem := match o.mem with
      | .write a v => s.mem.write a.toNat v
      | .idle | .read _ => s.mem }

/-! ## A run at the ports -/

/-- Where a run stands at the ports. -/
inductive PortRun where
  /-- The start action (R180) is due. `left` is what the run before left in the block's stack storage,
  of which nothing is visible in this run (R36, R39). -/
  | due (program : List Byte) (initialValues : List Word) (capacity : StackCapacity)
      (left : List Word)
  /-- The start action is done; the machine stands in this state. -/
  | started (s : State)
deriving DecidableEq, Repr

/-- The block's own state, `S[0 .. depth-1]` (R14). -/
def PortRun.stack : PortRun → List Word
  | .due _ _ _ left => left
  | .started s => s.stack

/-- The size of the block's stack storage (R8). -/
def PortRun.capacity : PortRun → StackCapacity
  | .due _ _ capacity _ => capacity
  | .started s => s.stackCapacity

/-- The block's inputs as the sequencer drives them, with `memRdata` on `mem_rdata`: `start` while the
start action is due (R180), then `issue` wherever the fetch check passes (R14, R30). In the step of an
end-of-run check and after the end of the run both are 0 (log entry 20). -/
def PortRun.input (memRdata : Word) : PortRun → BlockIn
  | .due _ _ _ _ => .start
  | .started s =>
    match s.status with
    | .halted _ => .idle
    | .running =>
      match fetch s with
      | .ended _ => .idle
      | .byte instr => .issue instr s.pc memRdata

/-- What the block answers in this step, its outputs and its next stack. -/
def PortRun.answer (memRdata : Word) (r : PortRun) : Option BlockOut × List Word :=
  block r.capacity (r.input memRdata) r.stack

/-- `memRdata` is the cell the block asks for in this step, if it asks for one (R14). -/
def PortRun.busAnswers (memRdata : Word) (r : PortRun) : Bool :=
  match r with
  | .due _ _ _ _ => true
  | .started s =>
    match (r.answer memRdata).1 with
    | some o => busDrives s.mem o memRdata
    | none => true

/-- The sequencer's end-of-run check (R30), made in a step without an `issue`. -/
def endCheck (s : State) : State :=
  match s.status with
  | .halted _ => s
  | .running =>
    match fetch s with
    | .ended result => s.withStatus (.halted result)
    | .byte _ => s

/-- One step of a run at the ports. The start step takes the depth counter from the block, which
`start` clears (R36), and every other start value from the start action (R180); each later step
follows the block's outputs (R15), or is an end-of-run check. -/
def PortRun.next (memRdata : Word) (r : PortRun) : PortRun :=
  let answer := r.answer memRdata
  match r with
  | .due program initialValues capacity _ =>
    .started ((startRun program initialValues capacity).withStack answer.2)
  | .started s =>
    match answer.1 with
    | some o => .started (commit s o answer.2)
    | none => .started (endCheck (s.withStack answer.2))

/-- The block's inputs over the steps of a run, with what stands on `mem_rdata` in each. -/
def PortRun.inputs : List Word → PortRun → List BlockIn
  | [], _ => []
  | memRdata :: later, r => r.input memRdata :: PortRun.inputs later (r.next memRdata)

end Sys2Proof.Machine
end

