-- ==== Sys2Proof/Safety.lean ====
section
/-!
DEFINITION. What counts as a sound state, an explained result and a run, in the terms the statements
use.
-/

namespace Sys2Proof.Machine

/-- The invariant of the machine: data memory is in its canonical form (20_memory.md R40), the depth
counter is within the capacity (10_state.md R12), the capacity is positive or unbounded (R8), and the
program is no longer than 2^31 - 1 (R7). -/
abbrev State.Inv (s : State) : Prop :=
  s.mem.wf = true ∧ s.stackCapacity.admits s.depth = true ∧ s.stackCapacity.isPositive = true ∧
    s.programLength ≤ Config.maxProgramLength

/-- `pc` names an instruction of the program, `0 <= pc < L` (R30). -/
abbrev State.pcInRange (s : State) : Prop := 0 ≤ s.pc.toInt ∧ s.pc.toInt < s.programLength

/-- The last column of R150: which operation can end a run with which result. -/
def raisedBy (result : RunResult) (t : Tag) : Bool :=
  match result, t with
  | .ok, .instr .halt => true
  | .unknownInstruction, .illegal => true
  | .emptyStack, .instr i =>
    match i with
    | .add | .sub | .mul | .div | .cmp | .prtd | .prtc | .jmp | .jz | .load | .store | .pick
    | .roll | .drop => true
    | .nop | .pushd _ | .rsvc | .rsvd | .halt => false
  | .invalidStackIndex, .instr .pick => true
  | .invalidStackIndex, .instr .roll => true
  | .divisionByZero, .instr .div => true
  | .invalidMemoryAddress, .instr .load => true
  | .invalidMemoryAddress, .instr .store => true
  | .allocationFailure, .instr (.pushd _) => true
  | _, _ => false

/-- What the stack of an ended run shows of the cause: EmptyStack leaves depth 0 (R152), and
AllocationFailure leaves the full storage as it was (R24). -/
def stackShows (result : RunResult) (s : State) : Bool :=
  match result with
  | .emptyStack => s.stack.isEmpty
  | .allocationFailure => s.stackCapacity.isFull s.depth
  | .ok | .programCounterOutOfBounds | .unknownInstruction | .invalidStackIndex | .divisionByZero
  | .invalidMemoryAddress => true

/-- The result of an ended run is one that `pc` explains (R150, R152): an end-of-run check gives it at
this `pc`, or the instruction at `pc` can raise it and the stack is as it leaves it. -/
def State.explained (s : State) : Bool :=
  match s.status with
  | .running => true
  | .halted result =>
    match fetch s with
    | .ended r => decide (result = r)
    | .byte instr => raisedBy result (decode instr) && stackShows result s

/-- The parameters a host may start a run with (R7, R8, R168). -/
abbrev validStart (program : List Byte) (capacity : StackCapacity) : Prop :=
  program.length ≤ Config.maxProgramLength ∧ capacity.isPositive = true

/-- The result of a run that has ended: its code and the bytes of `out` (R32). -/
def State.runResult (s : State) : Option (RunResult × List Byte) :=
  match s.status with
  | .running => none
  | .halted result => some (result, s.out)

/-- The next step from `s` ends the run with `result` and changes the status alone, as an end-of-run
check does (R30). -/
abbrev State.endsAtFetch (s : State) (result : RunResult) : Prop :=
  step s = .next { s with status := .halted result }

end Sys2Proof.Machine
end

