-- ==== Sys2Proof/Certificates/Slice0/Obligations.lean ====
section
/-!
DEFINITION. The statements for the provers, from the numbered rules of the spec. Stacks are written
bottom first, top last, as the spec writes them. An equation `exec i s = .next { s with … }` says the
result, the completion and the frame at once: every field not named keeps its value.
-/

open Sys2Proof Sys2Proof.Machine

namespace Sys2Proof.Claims

/-- `r` is `w32(v)` of 00_scope.md section 5: the one 32-bit signed word congruent to `v` modulo 2^32
(a word's `toInt` lies in `[-2^31, 2^31-1]`). -/
def Wraps (v : Int) (r : Word) : Prop := ∃ q : Int, v = r.toInt + 4294967296 * q

/-- The opcode map of R62, row by row. -/
def opcodeMap : List (Byte × Instr) :=
  [(0x20#8, .nop), (0x30#8, .pushd 0), (0x31#8, .pushd 1), (0x32#8, .pushd 2), (0x33#8, .pushd 3),
   (0x34#8, .pushd 4), (0x35#8, .pushd 5), (0x36#8, .pushd 6), (0x37#8, .pushd 7), (0x38#8, .pushd 8),
   (0x39#8, .pushd 9), (0x2B#8, .add), (0x2D#8, .sub), (0x2A#8, .mul), (0x2F#8, .div), (0x3A#8, .cmp),
   (0x70#8, .prtd), (0x50#8, .prtc), (0x67#8, .jmp), (0x3F#8, .jz), (0x3C#8, .load), (0x3E#8, .store),
   (0x5E#8, .pick), (0x76#8, .roll), (0x64#8, .drop), (0x63#8, .rsvc), (0x24#8, .rsvd), (0x21#8, .halt)]

/-- `bytes` is the decimal representation of `a` as R100 describes it: a minus sign for a negative
word, then the digits of the magnitude, most significant first, no leading zero. -/
def IsDecimal (a : Word) (bytes : List Byte) : Prop :=
  ∃ digits : List Nat,
    digits ≠ [] ∧ (∀ d ∈ digits, d ≤ 9) ∧ (digits.head? = some 0 → digits = [0]) ∧
    digits.foldl (fun n d => 10 * n + d) 0 = a.toInt.natAbs ∧
    bytes = (if a.toInt < 0 then [0x2D#8] else []) ++ digits.map fun d => BitVec.ofNat 8 (0x30 + d)

/-- How many words an instruction that does not end the run pushes (R70, column "push"); ROLL puts
back the element it removes and is counted as pushing none. -/
def pushes : Instr → Nat
  | .pushd _ | .add | .sub | .mul | .div | .cmp | .load | .pick => 1
  | .nop | .prtd | .prtc | .jmp | .jz | .store | .roll | .drop | .rsvc | .rsvd | .halt => 0

end Sys2Proof.Claims

open Sys2Proof.Claims

/-! ## Encoding -/

/-- R62, R63: the 28 mapped bytes decode to their tags, every other byte to ILLEGAL. -/
def Obligations.DecoderFollowsTheOpcodeMap : Prop :=
  opcodeMap.length = 28 ∧ (∀ row ∈ opcodeMap, decode row.1 = .instr row.2) ∧
    ∀ b : Byte, b ∉ opcodeMap.map Prod.fst → decode b = .illegal

/-- R60, R62, R63: a byte decodes to an instruction exactly when the instruction is well formed and
is encoded by that byte. -/
def Obligations.DecodeInvertsEncode : Prop :=
  ∀ (b : Byte) (i : Instr), decode b = .instr i ↔ i.wellFormed = true ∧ encode i = b

/-- A few words written out from the spec's encodings, one for each family. -/
def Obligations.SampleWordsDecodeAsTheSpecSays : Prop :=
  decode 0b00100000#8 = .instr .nop ∧ decode 0b00110111#8 = .instr (.pushd 7) ∧
    decode 0b00101101#8 = .instr .sub ∧ decode 0b01010000#8 = .instr .prtc ∧
    decode 0b01110000#8 = .instr .prtd ∧ decode 0b01100111#8 = .instr .jmp ∧
    decode 0b00111110#8 = .instr .store ∧ decode 0b01110110#8 = .instr .roll ∧
    decode 0b00100100#8 = .instr .rsvd ∧ decode 0b00100001#8 = .instr .halt ∧
    decode 0b00111011#8 = .illegal ∧ decode 0b01010110#8 = .illegal

/-! ## No-op, digit push, reserved and halt -/

/-- R80. -/
def Obligations.NopOnlyAdvancesThePc : Prop :=
  (∀ b, decode b = .instr .nop ↔ b = 0x20#8) ∧
    ∀ s, exec .nop s = .next { s with pc := s.pc + 1#32 }

/-- R140, R141, R66. -/
def Obligations.ReservedNoOpsOnlyAdvanceThePc : Prop :=
  (∀ b, decode b = .instr .rsvc ↔ b = 0x63#8) ∧ (∀ b, decode b = .instr .rsvd ↔ b = 0x24#8) ∧
    ∀ s, exec .rsvc s = .next { s with pc := s.pc + 1#32 } ∧
      exec .rsvd s = .next { s with pc := s.pc + 1#32 }

/-- R81, R28: the digit, 0 to 9, is pushed while the storage has room; a push at `depth == STACK_CAPACITY`
ends the run with AllocationFailure and changes nothing else; no other instruction can. -/
def Obligations.PushdPushesTheDigitOrReportsFullStorage : Prop :=
  (∀ (b : Byte) (d : BitVec 4),
    decode b = .instr (.pushd d) ↔ d.toNat ≤ 9 ∧ b.toNat = 0x30 + d.toNat) ∧
  (∀ (s : State) (d : BitVec 4), d.toNat ≤ 9 → s.stackCapacity ≠ .cells s.depth →
    ∃ v : Word, v.toInt = d.toNat ∧
      exec (.pushd d) s = .next { s with stack := s.stack ++ [v], pc := s.pc + 1#32 }) ∧
  (∀ (s : State) (d : BitVec 4), d.toNat ≤ 9 → s.stackCapacity = .cells s.depth →
    exec (.pushd d) s = .next { s with status := .halted .allocationFailure }) ∧
  (∀ (i : Instr) (s t : State), s.Inv → s.status = .running → exec i s = .next t →
    t.status = .halted .allocationFailure → ∃ d, i = .pushd d)

/-- R142: halt ends the run with Ok and keeps the pc, the stack, memory and output. -/
def Obligations.HaltEndsTheRunWithOk : Prop :=
  (∀ b, decode b = .instr .halt ↔ b = 0x21#8) ∧
    ∀ s, exec .halt s = .next { s with status := .halted .ok }

/-- R143: a byte that is not mapped ends the run with UnknownInstruction whatever the stack holds,
and changes nothing else. -/
def Obligations.UnmappedByteEndsTheRunAsUnknown : Prop :=
  ∀ (s : State) (b : Byte), s.status = .running → s.pcInRange → s.prog[s.pc.toNat]? = some b →
    b ∉ opcodeMap.map Prod.fst → step s = .next { s with status := .halted .unknownInstruction }

/-! ## Stack ALU -/

/-- R90. -/
def Obligations.AddPushesTheWrappedSum : Prop :=
  (∀ b, decode b = .instr .add ↔ b = 0x2B#8) ∧
  (∀ (s : State) (l : List Word) (a b : Word), s.Inv → s.stack = l ++ [a, b] →
    ∃ r, Wraps (a.toInt + b.toInt) r ∧
      exec .add s = .next { s with stack := l ++ [r], pc := s.pc + 1#32 }) ∧
  ∀ s : State, s.depth < 2 →
    exec .add s = .next { s with stack := [], status := .halted .emptyStack }

/-- R91: second from top minus top. -/
def Obligations.SubPushesTheWrappedDifference : Prop :=
  (∀ b, decode b = .instr .sub ↔ b = 0x2D#8) ∧
  (∀ (s : State) (l : List Word) (a b : Word), s.Inv → s.stack = l ++ [a, b] →
    ∃ r, Wraps (a.toInt - b.toInt) r ∧
      exec .sub s = .next { s with stack := l ++ [r], pc := s.pc + 1#32 }) ∧
  ∀ s : State, s.depth < 2 →
    exec .sub s = .next { s with stack := [], status := .halted .emptyStack }

/-- R92. -/
def Obligations.MulPushesTheWrappedProduct : Prop :=
  (∀ b, decode b = .instr .mul ↔ b = 0x2A#8) ∧
  (∀ (s : State) (l : List Word) (a b : Word), s.Inv → s.stack = l ++ [a, b] →
    ∃ r, Wraps (a.toInt * b.toInt) r ∧
      exec .mul s = .next { s with stack := l ++ [r], pc := s.pc + 1#32 }) ∧
  ∀ s : State, s.depth < 2 →
    exec .mul s = .next { s with stack := [], status := .halted .emptyStack }

/-- R93: the quotient truncated toward zero (`Int.tdiv`), wrapped; DivisionByZero with both operands
consumed; EmptyStack before the divisor test. -/
def Obligations.DivPushesTheTruncatedQuotient : Prop :=
  (∀ b, decode b = .instr .div ↔ b = 0x2F#8) ∧
  (∀ (s : State) (l : List Word) (a b : Word), s.Inv → s.stack = l ++ [a, b] → b ≠ 0#32 →
    ∃ r, Wraps (Int.tdiv a.toInt b.toInt) r ∧
      exec .div s = .next { s with stack := l ++ [r], pc := s.pc + 1#32 }) ∧
  (∀ (s : State) (l : List Word) (a : Word), s.stack = l ++ [a, 0#32] →
    exec .div s = .next { s with stack := l, status := .halted .divisionByZero }) ∧
  ∀ s : State, s.depth < 2 →
    exec .div s = .next { s with stack := [], status := .halted .emptyStack }

/-- R94: the exact signed comparison, never a wrapped subtraction. -/
def Obligations.CmpPushesTheSignedComparison : Prop :=
  (∀ b, decode b = .instr .cmp ↔ b = 0x3A#8) ∧
  (∀ (s : State) (l : List Word) (a b : Word), s.Inv → s.stack = l ++ [a, b] →
    ∃ r : Word, r.toInt = (if a.toInt < b.toInt then -1 else if a.toInt = b.toInt then 0 else 1) ∧
      exec .cmp s = .next { s with stack := l ++ [r], pc := s.pc + 1#32 }) ∧
  ∀ s : State, s.depth < 2 →
    exec .cmp s = .next { s with stack := [], status := .halted .emptyStack }

/-! ## Output -/

/-- R100: the decimal representation of the popped word, 1 to 11 bytes, is appended to the output. -/
def Obligations.PrtdWritesTheDecimalRepresentation : Prop :=
  (∀ b, decode b = .instr .prtd ↔ b = 0x70#8) ∧
  (∀ (s : State) (l : List Word) (a : Word), s.stack = l ++ [a] →
    ∃ bytes, IsDecimal a bytes ∧ 1 ≤ bytes.length ∧ bytes.length ≤ 11 ∧
      exec .prtd s = .next { s with stack := l, out := s.out ++ bytes, pc := s.pc + 1#32 }) ∧
  ∀ s : State, s.depth = 0 → exec .prtd s = .next { s with status := .halted .emptyStack }

/-- R101: one byte, the residue of the popped word modulo 256, is appended to the output. -/
def Obligations.PrtcWritesTheResidueModulo256 : Prop :=
  (∀ b, decode b = .instr .prtc ↔ b = 0x50#8) ∧
  (∀ (s : State) (l : List Word) (a : Word), s.stack = l ++ [a] →
    ∃ byte : Byte, (byte.toNat : Int) = a.toInt % 256 ∧
      exec .prtc s = .next { s with stack := l, out := s.out ++ [byte], pc := s.pc + 1#32 }) ∧
  ∀ s : State, s.depth = 0 → exec .prtc s = .next { s with status := .halted .emptyStack }

/-- R20: the output of a run starts empty, grows by what `p` and `P` append and is never rolled
back. -/
def Obligations.OutputIsAppendOnly : Prop :=
  (∀ program values capacity, (startRun program values capacity).out = []) ∧
  ∀ s t : State, step s = .next t →
    (∃ bytes, t.out = s.out ++ bytes) ∧
    (fetch s ≠ .byte 0x70#8 → fetch s ≠ .byte 0x50#8 → t.out = s.out)

/-- R44: the output is write-only, so what it holds changes nothing else in a step. -/
def Obligations.OutputInfluencesNothing : Prop :=
  ∀ s t : State, step s = .next t →
    ∃ bytes, t.out = s.out ++ bytes ∧
      ∀ other, step { s with out := other } = .next { t with out := other ++ bytes }

/-! ## Control transfer -/

/-- R110: the net displacement is the operand plus one, wrapped; the jump itself raises nothing, and
a target outside `[0, L)` ends the run at the next step. -/
def Obligations.JmpAddsTheOperandPlusOne : Prop :=
  (∀ b, decode b = .instr .jmp ↔ b = 0x67#8) ∧
  (∀ (s : State) (l : List Word) (a : Word), s.stack = l ++ [a] →
    ∃ target, Wraps (s.pc.toInt + a.toInt + 1) target ∧
      exec .jmp s = .next { s with stack := l, pc := target }) ∧
  (∀ (s : State) (l : List Word) (a : Word), s.status = .running → s.stack = l ++ [a] →
    ∃ t, exec .jmp s = .next t ∧ (t.pc.toInt = t.programLength → t.endsAtFetch .ok) ∧
      (t.pc.toInt < 0 ∨ (t.programLength : Int) < t.pc.toInt →
        t.endsAtFetch .programCounterOutOfBounds)) ∧
  ∀ s : State, s.depth = 0 → exec .jmp s = .next { s with status := .halted .emptyStack }

/-- R111: the top is the offset and the second the condition; only a zero condition jumps, and both
are consumed either way. -/
def Obligations.JzJumpsOnlyOnZero : Prop :=
  (∀ b, decode b = .instr .jz ↔ b = 0x3F#8) ∧
  (∀ (s : State) (l : List Word) (a : Word), s.stack = l ++ [0#32, a] →
    ∃ target, Wraps (s.pc.toInt + a.toInt + 1) target ∧
      exec .jz s = .next { s with stack := l, pc := target }) ∧
  (∀ (s : State) (l : List Word) (a b : Word), s.stack = l ++ [b, a] → b ≠ 0#32 →
    exec .jz s = .next { s with stack := l, pc := s.pc + 1#32 }) ∧
  ∀ s : State, s.depth < 2 →
    exec .jz s = .next { s with stack := [], status := .halted .emptyStack }

/-- R112: the wrapped target of a taken jump gives the same run result as the exact sum would; the
sum wraps only when it is at least 2^31, and then the pc is negative. -/
def Obligations.JumpWrapIsUnobservableInTheResult : Prop :=
  ∀ (s : State) (a : Word) (target : Int), s.Inv → s.status = .running → s.pcInRange →
    ((fetch s = .byte 0x67#8 ∧ ∃ l, s.stack = l ++ [a]) ∨
      (fetch s = .byte 0x3F#8 ∧ ∃ l, s.stack = l ++ [0#32, a])) →
    target = s.pc.toInt + a.toInt + 1 →
    -2147483648 + 1 ≤ target ∧ target ≤ s.programLength + 2147483648 - 1 ∧
      ∃ t, step s = .next t ∧
        (0 ≤ target → target < s.programLength → t.pc.toInt = target) ∧
        (target = s.programLength → t.endsAtFetch .ok) ∧
        (target < 0 ∨ (s.programLength : Int) < target → t.endsAtFetch .programCounterOutOfBounds) ∧
        (t.pc.toInt ≠ target → 2147483648 ≤ target ∧ t.pc.toInt < 0)

/-! ## Memory -/

/-- R120: the addressed cell is pushed; an address outside `[0, 16384)` raises InvalidMemoryAddress
with the address consumed. -/
def Obligations.LoadPushesTheAddressedCell : Prop :=
  (∀ b, decode b = .instr .load ↔ b = 0x3C#8) ∧
  (∀ (s : State) (l : List Word) (a : Word), s.Inv → s.stack = l ++ [a] →
    0 ≤ a.toInt → a.toInt < 16384 →
    exec .load s =
      .next { s with stack := l ++ [s.mem.read a.toInt.toNat], pc := s.pc + 1#32 }) ∧
  (∀ (s : State) (l : List Word) (a : Word), s.stack = l ++ [a] →
    a.toInt < 0 ∨ 16384 ≤ a.toInt →
    exec .load s = .next { s with stack := l, status := .halted .invalidMemoryAddress }) ∧
  ∀ s : State, s.depth = 0 → exec .load s = .next { s with status := .halted .emptyStack }

/-- R121: the addressed cell, and no other, takes the value; the pops are checked before the
address. The cell stored to is the one the meaning computes, `cellPort a`, and that is `a`. -/
def Obligations.StoreWritesTheAddressedCellOnly : Prop :=
  (∀ b, decode b = .instr .store ↔ b = 0x3E#8) ∧
  (∀ (s : State) (l : List Word) (a b : Word), s.Inv → s.stack = l ++ [b, a] →
    0 ≤ a.toInt → a.toInt < 16384 →
    ((cellPort a).toNat : Int) = a.toInt ∧
    ∃ m : Memory, m.read (cellPort a).toNat = b ∧
      (∀ c, c ≠ (cellPort a).toNat → m.read c = s.mem.read c) ∧
      exec .store s = .next { s with stack := l, mem := m, pc := s.pc + 1#32 }) ∧
  (∀ (s : State) (l : List Word) (a b : Word), s.stack = l ++ [b, a] →
    a.toInt < 0 ∨ 16384 ≤ a.toInt →
    exec .store s = .next { s with stack := l, status := .halted .invalidMemoryAddress }) ∧
  ∀ s : State, s.depth < 2 →
    exec .store s = .next { s with stack := [], status := .halted .emptyStack }

/-- R51 (95_test_vectors.md W5): a load after a store gives the stored word at the stored address
and the old word at every other. -/
def Obligations.LoadAfterStoreGivesTheStoredWord : Prop :=
  ∀ (s : State) (l : List Word) (a b : Word), s.Inv → s.stack = l ++ [b, a] →
    0 ≤ a.toInt → a.toInt < 16384 →
    ∃ t, exec .store s = .next t ∧
      ∀ c : Word, 0 ≤ c.toInt → c.toInt < 16384 →
        ∃ u, exec .load { t with stack := l ++ [c] } = .next u ∧ u.status = s.status ∧
          u.stack = l ++ [if c = a then b else s.mem.read c.toInt.toNat]

/-- R47: every cell holds its initial value or zero at the start of a run; oversized input is
truncated. -/
def Obligations.InitMemoryCopiesThenZeroFills : Prop :=
  ∀ (values : List Word) (a : Nat), a < 16384 →
    (∀ v, values[a]? = some v → (initMemory values).read a = v) ∧
    (values.length ≤ a → (initMemory values).read a = 0#32)

/-- R40 (log entry 1): memory is changed by the store instruction alone, and two canonical memories
whose 16384 cells read the same are the same data. -/
def Obligations.MemoryIsItsCellsAndOnlyStoreChangesIt : Prop :=
  (∀ s t : State, step s = .next t → fetch s ≠ .byte 0x3E#8 → t.mem = s.mem) ∧
  ∀ m n : Memory, m.wf = true → n.wf = true → (∀ a, a < 16384 → m.read a = n.read a) → m = n

/-! ## Stack-index operations -/

/-- R130: a copy of the element that has `a` others above it, after the pop, is pushed. -/
def Obligations.PickCopiesTheElementAtTheDepth : Prop :=
  (∀ b, decode b = .instr .pick ↔ b = 0x5E#8) ∧
  (∀ (s : State) (below above : List Word) (v a : Word), s.Inv →
    s.stack = below ++ [v] ++ above ++ [a] → a.toInt = above.length →
    exec .pick s = .next { s with stack := below ++ [v] ++ above ++ [v], pc := s.pc + 1#32 }) ∧
  (∀ (s : State) (l : List Word) (a : Word), s.stack = l ++ [a] →
    a.toInt < 0 ∨ (l.length : Int) ≤ a.toInt →
    exec .pick s = .next { s with stack := l, status := .halted .invalidStackIndex }) ∧
  ∀ s : State, s.depth = 0 → exec .pick s = .next { s with status := .halted .emptyStack }

/-- R131: the element that has `a` others above it, after the pop, moves to the top, and those above
it move one place down. -/
def Obligations.RollMovesTheElementAtTheDepthToTheTop : Prop :=
  (∀ b, decode b = .instr .roll ↔ b = 0x76#8) ∧
  (∀ (s : State) (below above : List Word) (v a : Word),
    s.stack = below ++ [v] ++ above ++ [a] → a.toInt = above.length →
    exec .roll s = .next { s with stack := below ++ above ++ [v], pc := s.pc + 1#32 }) ∧
  (∀ (s : State) (l : List Word) (a : Word), s.stack = l ++ [a] →
    a.toInt < 0 ∨ (l.length : Int) ≤ a.toInt →
    exec .roll s = .next { s with stack := l, status := .halted .invalidStackIndex }) ∧
  ∀ s : State, s.depth = 0 → exec .roll s = .next { s with status := .halted .emptyStack }

/-- R132. -/
def Obligations.DropDiscardsTheTop : Prop :=
  (∀ b, decode b = .instr .drop ↔ b = 0x64#8) ∧
  (∀ (s : State) (l : List Word) (a : Word), s.stack = l ++ [a] →
    exec .drop s = .next { s with stack := l, pc := s.pc + 1#32 }) ∧
  ∀ s : State, s.depth = 0 → exec .drop s = .next { s with status := .halted .emptyStack }

/-! ## Stack primitives, on the absolute storage `S[i]` of R11 -/

/-- R24. -/
def Obligations.PushWritesTheCellAtDepth : Prop :=
  ∀ (s : State) (v : Word) (rest : State → Result),
    (s.stackCapacity = .cells s.depth →
      push v s rest = .next { s with status := .halted .allocationFailure }) ∧
    (s.stackCapacity ≠ .cells s.depth →
      ∃ l : List Word, l.length = s.depth + 1 ∧ l[s.depth]? = some v ∧
        (∀ i, i < s.depth → l[i]? = s.stack[i]?) ∧ push v s rest = rest { s with stack := l })

/-- R25. -/
def Obligations.PopReturnsTheCellBelowDepth : Prop :=
  ∀ (s : State) (rest : Word → State → Result),
    (s.depth = 0 → pop s rest = .next { s with status := .halted .emptyStack }) ∧
    (s.depth ≠ 0 →
      ∃ (v : Word) (l : List Word), s.stack[s.depth - 1]? = some v ∧ l.length + 1 = s.depth ∧
        (∀ i, i < s.depth - 1 → l[i]? = s.stack[i]?) ∧ pop s rest = rest v { s with stack := l })

/-- R26: signed index, `S[depth - 1 - k]`. -/
def Obligations.PeekReadsTheCellAtTheDepth : Prop :=
  ∀ (s : State) (k : Word) (rest : Word → Result),
    (k.toInt < 0 ∨ (s.depth : Int) ≤ k.toInt →
      peek k s rest = .next { s with status := .halted .invalidStackIndex }) ∧
    (0 ≤ k.toInt → k.toInt < s.depth →
      ∃ v, s.stack[s.depth - 1 - k.toInt.toNat]? = some v ∧ peek k s rest = rest v)

/-- R27: the storage after the rotation, cell by cell, and the multiset of values preserved. -/
def Obligations.RotateToTopShiftsTheCellsAbove : Prop :=
  ∀ (s : State) (k : Word) (rest : State → Result),
    (k.toInt < 0 ∨ (s.depth : Int) ≤ k.toInt →
      rotateToTop k s rest = .next { s with status := .halted .invalidStackIndex }) ∧
    (0 ≤ k.toInt → k.toInt < s.depth →
      ∃ l : List Word,
        (∀ j, j < s.depth - 1 - k.toInt.toNat → l[j]? = s.stack[j]?) ∧
        (∀ j, s.depth - 1 - k.toInt.toNat ≤ j → j < s.depth - 1 → l[j]? = s.stack[j + 1]?) ∧
        l[s.depth - 1]? = s.stack[s.depth - 1 - k.toInt.toNat]? ∧
        l.length = s.depth ∧ l.Perm s.stack ∧
        rotateToTop k s rest = rest { s with stack := l })

/-- R12, R70: the depth changes by what the instruction pops and pushes, whenever it does not end
the run. -/
def Obligations.DepthChangesByPopsAndPushes : Prop :=
  ∀ (i : Instr) (s t : State), s.status = .running → exec i s = .next t → t.status = .running →
    t.depth + tagPops (.instr i) = s.depth + pushes i

/-! ## The step, its order and its end -/

/-- R30, all its cases; a state whose run has ended has no step. -/
def Obligations.StepFollowsTheSequencer : Prop :=
  (∀ (s : State) (r : RunResult), s.status = .halted r → ∀ t, step s ≠ .next t) ∧
  (∀ s : State, s.status = .running → s.pc.toInt = s.programLength → s.endsAtFetch .ok) ∧
  (∀ s : State, s.status = .running → s.pc.toInt < 0 ∨ (s.programLength : Int) < s.pc.toInt →
    s.endsAtFetch .programCounterOutOfBounds) ∧
  ∀ (s : State) (b : Byte), s.status = .running → s.pcInRange → s.prog[s.pc.toNat]? = some b →
    step s = match decode b with
      | .instr i => exec i s
      | .illegal => .next { s with status := .halted .unknownInstruction }

/-- R30: the step at a byte that decodes to an instruction is that instruction's `exec`, which
includes the pc advance of R31; the step adds nothing. -/
def Obligations.StepRunsTheDecodedInstruction : Prop :=
  ∀ (s : State) (b : Byte) (i : Instr), s.status = .running → s.pcInRange →
    s.prog[s.pc.toNat]? = some b → decode b = .instr i → step s = exec i s

/-- R31: the pc after an instruction, in the three cases of the rule; the increment never wraps. -/
def Obligations.DefaultPcAdvanceIsByOne : Prop :=
  ∀ (i : Instr) (s t : State), s.Inv → s.status = .running → s.pcInRange → exec i s = .next t →
    (t.status ≠ .running → t.pc = s.pc) ∧
    (t.status = .running → i ≠ .jmp → i ≠ .jz → t.pc.toInt = s.pc.toInt + 1) ∧
    (t.status = .running → i = .jmp ∨ i = .jz →
      t.pc.toInt = s.pc.toInt + 1 ∨
      ∃ a, s.stack.getLast? = some a ∧ Wraps (s.pc.toInt + a.toInt + 1) t.pc)

/-- R32: every running state has a next step, and every instruction answers a next state; nothing is
refused. -/
def Obligations.RunningStatesAlwaysStep : Prop :=
  (∀ (i : Instr) (s : State), ∃ t, exec i s = .next t) ∧
  ∀ s : State, s.status = .running → ∃ t, step s = .next t

/-- R33: a halted status never changes again within the run: the only state that any number of
steps reaches from a halted one is that state itself. -/
def Obligations.HaltedStatusIsFinal : Prop :=
  ∀ (n : Nat) (s t : State) (r : RunResult), s.status = .halted r →
    Host.Core.run core n s = .next t → n = 0 ∧ t = s

/-- The model's choice (log entry 6) for a state that R30 and R32 give no step: the step stops with
the fault that names the result of the run. -/
def Obligations.HaltedStateStopsByName : Prop :=
  ∀ (s : State) (r : RunResult), s.status = .halted r → step s = .fault (.noStep r)

/-- R17, R54: no step changes the program. R8 and 10_state.md section 1 make
STACK_CAPACITY a parameter of the run; that it is a field of State which no step changes is the model's choice (log entry 3). -/
def Obligations.ProgramAndCapacityNeverChange : Prop :=
  ∀ s t : State, step s = .next t → t.prog = s.prog ∧ t.stackCapacity = s.stackCapacity

/-! ## Errors -/

/-- R152, R154: what a step that ends the run leaves, per result; memory, output and pc are as they
were, consumed operands stay consumed, and nothing is pushed. -/
def Obligations.StateLeftByARunResult : Prop :=
  ∀ (s t : State) (r : RunResult), s.Inv → s.status = .running → step s = .next t →
    t.status = .halted r →
    t.mem = s.mem ∧ t.pc = s.pc ∧ t.out = s.out ∧
    (r = .emptyStack → t.depth = 0) ∧
    (r = .divisionByZero → ∃ a b, s.stack = t.stack ++ [a, b]) ∧
    (r = .invalidMemoryAddress →
      (fetch s = .byte 0x3E#8 ∧ ∃ a b, s.stack = t.stack ++ [a, b]) ∨
      (fetch s = .byte 0x3C#8 ∧ ∃ a, s.stack = t.stack ++ [a])) ∧
    (r = .invalidStackIndex → ∃ a, s.stack = t.stack ++ [a]) ∧
    (r = .unknownInstruction ∨ r = .allocationFailure ∨ r = .ok ∨ r = .programCounterOutOfBounds →
      t.stack = s.stack)

/-- R19, R150: the bits of the status register. -/
def Obligations.StatusRegisterBits : Prop :=
  statusBits .running = 0b0000#4 ∧
  (∀ r, (statusBits (.halted r)).toNat = 8 + (resultCode r).toNat) ∧
  [RunResult.ok, .programCounterOutOfBounds, .unknownInstruction, .emptyStack, .invalidStackIndex,
    .divisionByZero, .invalidMemoryAddress, .allocationFailure].map resultCode =
    [0, 1, 2, 3, 4, 5, 6, 7] ∧
  ∀ x y : Status, statusBits x = statusBits y → x = y

/-! ## Start of a run, and the invariants -/

/-- R35-R38: the start values the spec gives, for every program, list of values and capacity. -/
def Obligations.StartOfARunHasTheStartValues : Prop :=
  ∀ program values capacity,
    let s := startRun program values capacity
    s.pc.toInt = 0 ∧ s.depth = 0 ∧ s.status = .running ∧ s.out = [] ∧ s.prog = program ∧
      s.stackCapacity = capacity ∧ s.mem = initMemory values

/-- R181: an empty program ends at once with Ok. Reset is the start of the empty run: its program,
values and capacity are the model's choice (log entries 3, 4, 5). -/
def Obligations.EmptyProgramEndsAtOnceWithOk : Prop :=
  (∀ values capacity, (startRun [] values capacity).endsAtFetch .ok) ∧
  State.reset = startRun [] [] .unbounded

/-- The state right after reset meets the invariant (log entries 3, 4 and 5 name the parameters of
reset). -/
def Obligations.ResetMeetsTheInvariant : Prop := State.reset.Inv ∧ State.reset.explained = true

/-- Every start of a run with valid parameters (R7, R8) meets the invariant, whatever its initial
values. -/
def Obligations.StartOfARunMeetsTheInvariant : Prop :=
  ∀ program values capacity, validStart program capacity →
    (startRun program values capacity).Inv ∧
    (startRun program values capacity).explained = true

/-- R12, R40, R7, R8: every step keeps the invariant. -/
def Obligations.StepKeepsTheInvariant : Prop :=
  ∀ s t : State, s.Inv → step s = .next t → t.Inv

/-- R150, R152: every step keeps the explanation of the run result: a run that has ended has a result
that the end-of-run check at `pc`, or the instruction at `pc`, can give, with the stack as it leaves
it. -/
def Obligations.StepKeepsTheResultExplained : Prop :=
  ∀ s t : State, s.Inv → s.explained = true → step s = .next t → t.Inv ∧ t.explained = true

/-! ## The block at its ports -/

/-- R15, R70: for an issued instruction the block's outputs and next stack, driven by the dispatch
table, make the sequencer and the environment do exactly what the step does, whatever stands on
`mem_rdata` while no read is requested; some value always answers the request. In an idle step the
block's state does not change (the model's idle outputs are log entry 13, and not stated here). -/
def Obligations.BlockAtItsPortsDoesTheStep : Prop :=
  (∀ (s : State) (b : Byte), s.Inv → s.status = .running → s.pcInRange →
    s.prog[s.pc.toNat]? = some b →
    (∃ rdata o st, block s.stackCapacity (.issue b s.pc rdata) s.stack = (some o, st) ∧
      busDrives s.mem o rdata = true) ∧
    ∀ rdata o st, block s.stackCapacity (.issue b s.pc rdata) s.stack = (some o, st) →
      busDrives s.mem o rdata = true → step s = .next (commit s o st)) ∧
  ∀ (capacity : StackCapacity) (stack : List Word), (block capacity .idle stack).2 = stack

/-- R14, R153: the widths and the validity of the block's outputs; an instruction that ends the run
makes no request, writes no byte and keeps the pc. -/
def Obligations.BlockOutputsFitTheirPorts : Prop :=
  ∀ (capacity : StackCapacity) (b : Byte) (pc rdata : Word) (stack st : List Word) (o : BlockOut),
    block capacity (.issue b pc rdata) stack = (some o, st) →
    o.outBytes.length ≤ 11 ∧ o.outLen.toNat = o.outBytes.length ∧
    (o.memRe = true → decode b = .instr .load) ∧ (o.memWe = true → decode b = .instr .store) ∧
    (o.outBytes ≠ [] → decode b = .instr .prtd ∨ decode b = .instr .prtc) ∧
    (o.done = true → o.pcNext = pc ∧ o.memRe = false ∧ o.memWe = false ∧ o.outBytes = [] ∧
      ∃ r, o.result = some r ∧ o.code = some (resultCode r))

/-- R36: `start` clears the depth counter, whatever the stack held. -/
def Obligations.StartPortClearsTheDepthCounter : Prop :=
  ∀ (capacity : StackCapacity) (stack : List Word), (block capacity .start stack).2.length = 0

/-- R180: the start action puts every piece of state in its start value, whatever the run before left
in the block's storage, and in ports it is the step in which the sequencer asserts `start`: the step
right before the first `issue`, which presents `prog[0]`. The last clause, that no later step drives
`start`, those of an end-of-run check and after the end of the run included, rests on the model's
choice (log entry 20). -/
def Obligations.SequencerAssertsStartBeforeTheFirstIssue : Prop :=
  ∀ (program : List Byte) (values : List Word) (capacity : StackCapacity) (left : List Word) (w : Word),
    let run := PortRun.due program values capacity left
    run.input w = .start ∧
    ∃ s : State, run.next w = .started s ∧ s = startRun program values capacity ∧
      s.pc.toInt = 0 ∧ s.depth = 0 ∧ s.status = .running ∧ s.out = [] ∧ s.prog = program ∧
      (∀ a, a < 16384 → s.mem.read a = (values[a]?).getD 0#32) ∧
      (∀ b w', program[0]? = some b → (run.next w).input w' = .issue b 0#32 w') ∧
      ∀ later, .start ∉ (run.next w).inputs later

/-- R15, R30: after the start action a step at the ports is the machine's step, an end-of-run check
included, as long as `mem_rdata` is the cell the block asks for; some value always is. A run that has
ended issues nothing and changes nothing (its inputs: log entry 20). -/
def Obligations.RunAtItsPortsFollowsTheMachine : Prop :=
  (∀ (s : State) (w : Word), s.Inv → s.status = .running →
    (PortRun.started s).busAnswers w = true →
    ∃ t, step s = .next t ∧ (PortRun.started s).next w = .started t) ∧
  (∀ s : State, ∃ w, (PortRun.started s).busAnswers w = true) ∧
  ∀ (s : State) (r : RunResult) (w : Word), s.status = .halted r →
    (∀ b pc w', (PortRun.started s).input w ≠ .issue b pc w') ∧
      (PortRun.started s).next w = .started s
end

