-- ==== Sys2Proof/Laws/State.lean ====
section
/-!
SUPPORT. One lemma per field per update of State, so that no proof unfolds a record update; and the
equality of two states by their fields.
-/

namespace Sys2Proof.Machine

variable (s : State)

@[simp] theorem State.withStack_stack (x : List Word) : (s.withStack x).stack = x := rfl
@[simp] theorem State.withStack_pc (x : List Word) : (s.withStack x).pc = s.pc := rfl
@[simp] theorem State.withStack_status (x : List Word) : (s.withStack x).status = s.status := rfl
@[simp] theorem State.withStack_mem (x : List Word) : (s.withStack x).mem = s.mem := rfl
@[simp] theorem State.withStack_out (x : List Word) : (s.withStack x).out = s.out := rfl
@[simp] theorem State.withStack_prog (x : List Word) : (s.withStack x).prog = s.prog := rfl
@[simp] theorem State.withStack_stackCapacity (x : List Word) : (s.withStack x).stackCapacity = s.stackCapacity := rfl
@[simp] theorem State.withStack_self : s.withStack s.stack = s := rfl
@[simp] theorem State.withStack_withStack (x y : List Word) : (s.withStack x).withStack y = s.withStack y := rfl

@[simp] theorem State.withPc_stack (x : Word) : (s.withPc x).stack = s.stack := rfl
@[simp] theorem State.withPc_pc (x : Word) : (s.withPc x).pc = x := rfl
@[simp] theorem State.withPc_status (x : Word) : (s.withPc x).status = s.status := rfl
@[simp] theorem State.withPc_mem (x : Word) : (s.withPc x).mem = s.mem := rfl
@[simp] theorem State.withPc_out (x : Word) : (s.withPc x).out = s.out := rfl
@[simp] theorem State.withPc_prog (x : Word) : (s.withPc x).prog = s.prog := rfl
@[simp] theorem State.withPc_stackCapacity (x : Word) : (s.withPc x).stackCapacity = s.stackCapacity := rfl
@[simp] theorem State.withPc_self : s.withPc s.pc = s := rfl
@[simp] theorem State.withPc_withPc (x y : Word) : (s.withPc x).withPc y = s.withPc y := rfl

@[simp] theorem State.withStatus_stack (x : Status) : (s.withStatus x).stack = s.stack := rfl
@[simp] theorem State.withStatus_pc (x : Status) : (s.withStatus x).pc = s.pc := rfl
@[simp] theorem State.withStatus_status (x : Status) : (s.withStatus x).status = x := rfl
@[simp] theorem State.withStatus_mem (x : Status) : (s.withStatus x).mem = s.mem := rfl
@[simp] theorem State.withStatus_out (x : Status) : (s.withStatus x).out = s.out := rfl
@[simp] theorem State.withStatus_prog (x : Status) : (s.withStatus x).prog = s.prog := rfl
@[simp] theorem State.withStatus_stackCapacity (x : Status) : (s.withStatus x).stackCapacity = s.stackCapacity := rfl
@[simp] theorem State.withStatus_self : s.withStatus s.status = s := rfl
@[simp] theorem State.withStatus_withStatus (x y : Status) : (s.withStatus x).withStatus y = s.withStatus y := rfl

@[simp] theorem State.withMem_stack (x : Memory) : (s.withMem x).stack = s.stack := rfl
@[simp] theorem State.withMem_pc (x : Memory) : (s.withMem x).pc = s.pc := rfl
@[simp] theorem State.withMem_status (x : Memory) : (s.withMem x).status = s.status := rfl
@[simp] theorem State.withMem_mem (x : Memory) : (s.withMem x).mem = x := rfl
@[simp] theorem State.withMem_out (x : Memory) : (s.withMem x).out = s.out := rfl
@[simp] theorem State.withMem_prog (x : Memory) : (s.withMem x).prog = s.prog := rfl
@[simp] theorem State.withMem_stackCapacity (x : Memory) : (s.withMem x).stackCapacity = s.stackCapacity := rfl
@[simp] theorem State.withMem_self : s.withMem s.mem = s := rfl
@[simp] theorem State.withMem_withMem (x y : Memory) : (s.withMem x).withMem y = s.withMem y := rfl

@[simp] theorem State.withOut_stack (x : List Byte) : (s.withOut x).stack = s.stack := rfl
@[simp] theorem State.withOut_pc (x : List Byte) : (s.withOut x).pc = s.pc := rfl
@[simp] theorem State.withOut_status (x : List Byte) : (s.withOut x).status = s.status := rfl
@[simp] theorem State.withOut_mem (x : List Byte) : (s.withOut x).mem = s.mem := rfl
@[simp] theorem State.withOut_out (x : List Byte) : (s.withOut x).out = x := rfl
@[simp] theorem State.withOut_prog (x : List Byte) : (s.withOut x).prog = s.prog := rfl
@[simp] theorem State.withOut_stackCapacity (x : List Byte) : (s.withOut x).stackCapacity = s.stackCapacity := rfl
@[simp] theorem State.withOut_self : s.withOut s.out = s := rfl
@[simp] theorem State.withOut_withOut (x y : List Byte) : (s.withOut x).withOut y = s.withOut y := rfl

/-- Two states with the same fields are the same state. -/
theorem State.eq_of_fields (s t : State) (hstack : s.stack = t.stack) (hpc : s.pc = t.pc)
    (hstatus : s.status = t.status) (hmem : s.mem = t.mem) (hout : s.out = t.out)
    (hprog : s.prog = t.prog) (hcapacity : s.stackCapacity = t.stackCapacity) : s = t := by
  cases s; cases t; simp_all

end Sys2Proof.Machine
end

