-- ==== Sys2Proof/Laws/Ops.lean ====
section
/-!
SUPPORT. For each shared operation, what it does on each of its cases, and one inversion lemma that
says everything it can do when it answers a next state.
-/

namespace Sys2Proof.Machine

/-! ## Words -/

theorem w32_toInt (v : Int) : (w32 v).toInt = v.bmod 4294967296 := by
  simp [w32, BitVec.toInt_ofInt]

@[simp] theorem w32_of_toInt (a : Word) : w32 a.toInt = a := by simp [w32]

theorem w32_eq_of_toInt_eq {v : Int} {r : Word} (h : v = r.toInt) : w32 v = r := by
  rw [h, w32_of_toInt]

/-- The default pc advance is the 32-bit increment. -/
@[simp] theorem w32_toInt_add_one (a : Word) : w32 (a.toInt + 1) = a + 1#32 := by
  apply BitVec.eq_of_toInt_eq
  simp [w32, BitVec.toInt_ofInt, BitVec.toInt_add]

/-! ## Going on and ending -/

theorem raise_eq (r : RunResult) (s : State) : raise r s = .next { s with status := .halted r } :=
  rfl

theorem advance_eq (s : State) : advance s = .next { s with pc := s.pc + 1#32 } := by
  simp [advance, State.withPc]

/-! ## The depth counter and the capacity -/

@[simp] theorem State.withStack_depth (s : State) (l : List Word) :
    (s.withStack l).depth = l.length := rfl

theorem isFull_iff (c : StackCapacity) (d : Nat) : c.isFull d = true ↔ c = .cells d := by
  cases c with
  | unbounded => simp [StackCapacity.isFull]
  | cells n => simp only [StackCapacity.isFull, decide_eq_true_eq, StackCapacity.cells.injEq]; omega

/-- A depth below an admitted one leaves room for a push. -/
theorem not_isFull_of_admits {c : StackCapacity} {d e : Nat} (h : c.admits d = true) (hlt : e < d) :
    c.isFull e = false := by
  cases c with
  | unbounded => rfl
  | cells n => simp [StackCapacity.isFull, StackCapacity.admits] at *; omega

theorem admits_mono {c : StackCapacity} {d e : Nat} (h : c.admits d = true) (hle : e ≤ d) :
    c.admits e = true := by
  cases c with
  | unbounded => rfl
  | cells n => simp [StackCapacity.admits] at *; omega

/-- A push that is not refused for want of room keeps the depth within the capacity. -/
theorem admits_succ {c : StackCapacity} {d : Nat} (h : c.admits d = true)
    (hroom : c.isFull d = false) : c.admits (d + 1) = true := by
  cases c with
  | unbounded => rfl
  | cells n => simp [StackCapacity.isFull, StackCapacity.admits] at *; omega

/-! ## Push and pop -/

theorem push_of_room {s : State} (h : s.stackCapacity.isFull s.depth = false) (v : Word)
    (rest : State → Result) : push v s rest = rest (s.withStack (s.stack ++ [v])) := by
  simp [push, h]

theorem push_of_full {s : State} (h : s.stackCapacity.isFull s.depth = true) (v : Word)
    (rest : State → Result) : push v s rest = raise .allocationFailure s := by
  simp [push, h]

/-- Everything a push can do. -/
theorem push_next {v : Word} {s t : State} {rest : State → Result} (h : push v s rest = .next t) :
    (s.stackCapacity.isFull s.depth = true ∧ t = s.withStatus (.halted .allocationFailure)) ∨
    (s.stackCapacity.isFull s.depth = false ∧ rest (s.withStack (s.stack ++ [v])) = .next t) := by
  cases hfull : s.stackCapacity.isFull s.depth with
  | true =>
    rw [push_of_full hfull, raise] at h
    exact .inl ⟨rfl, (Host.Outcome.next.inj h).symm⟩
  | false =>
    rw [push_of_room hfull] at h
    exact .inr ⟨rfl, h⟩

theorem pop_of_empty {s : State} (h : s.stack = []) (rest : Word → State → Result) :
    pop s rest = raise .emptyStack s := by
  simp [pop, h]

theorem pop_of_append {s : State} {l : List Word} {v : Word} (h : s.stack = l ++ [v])
    (rest : Word → State → Result) : pop s rest = rest v (s.withStack l) := by
  simp [pop, h]

/-- Everything a pop can do. -/
theorem pop_next {s t : State} {rest : Word → State → Result} (h : pop s rest = .next t) :
    (s.stack = [] ∧ t = s.withStatus (.halted .emptyStack)) ∨
    (∃ l v, s.stack = l ++ [v] ∧ rest v (s.withStack l) = .next t) := by
  rcases List.eq_nil_or_concat s.stack with hs | ⟨l, v, hs⟩
  · rw [pop_of_empty hs, raise] at h
    exact .inl ⟨hs, (Host.Outcome.next.inj h).symm⟩
  · rw [List.concat_eq_append] at hs
    rw [pop_of_append hs] at h
    exact .inr ⟨l, v, hs, h⟩

/-- The two-pop form of `+ - * / :` with both operands there: `b` is the top. -/
theorem popLeftRight_of_append {s : State} {l : List Word} {a b : Word} (h : s.stack = l ++ [a, b])
    (rest : Word → Word → State → Result) : popLeftRight s rest = rest a b (s.withStack l) := by
  have h' : s.stack = (l ++ [a]) ++ [b] := by simp [h]
  rw [popLeftRight, pop_of_append h', pop_of_append (l := l) (v := a) rfl]
  rfl

/-- The two-pop form of `?` and `>` with both operands there: `a` is the top. -/
theorem popTopSecond_of_append {s : State} {l : List Word} {a b : Word} (h : s.stack = l ++ [b, a])
    (rest : Word → Word → State → Result) : popTopSecond s rest = rest a b (s.withStack l) := by
  have h' : s.stack = (l ++ [b]) ++ [a] := by simp [h]
  rw [popTopSecond, pop_of_append h', pop_of_append (l := l) (v := b) rfl]
  rfl

/-- With fewer than two elements a two-pop form ends with EmptyStack and an empty stack. -/
theorem popLeftRight_of_short {s : State} (h : s.depth < 2) (rest : Word → Word → State → Result) :
    popLeftRight s rest = raise .emptyStack (s.withStack []) := by
  rcases List.eq_nil_or_concat s.stack with hs | ⟨l, v, hs⟩
  · rw [popLeftRight, pop_of_empty hs, ← hs, State.withStack_self]
  · have hl : l = [] := by
      simp [State.depth, hs] at h; exact h
    subst hl
    rw [popLeftRight, pop_of_append (l := []) (by simpa using hs), pop_of_empty (by simp)]

theorem popTopSecond_of_short {s : State} (h : s.depth < 2) (rest : Word → Word → State → Result) :
    popTopSecond s rest = raise .emptyStack (s.withStack []) :=
  popLeftRight_of_short h fun a b s => rest b a s

/-- Everything the two-pop form of `+ - * / :` can do. -/
theorem popLeftRight_next {s t : State} {rest : Word → Word → State → Result}
    (h : popLeftRight s rest = .next t) :
    (s.depth < 2 ∧ t = (s.withStack []).withStatus (.halted .emptyStack)) ∨
    (∃ l a b, s.stack = l ++ [a, b] ∧ rest a b (s.withStack l) = .next t) := by
  by_cases hd : s.depth < 2
  · rw [popLeftRight_of_short hd, raise] at h
    exact .inl ⟨hd, (Host.Outcome.next.inj h).symm⟩
  · rcases List.eq_nil_or_concat s.stack with hs | ⟨l, b, hs⟩
    · simp [State.depth, hs] at hd
    rcases List.eq_nil_or_concat l with hl | ⟨l', a, hl⟩
    · simp [State.depth, hs, hl] at hd
    have hs' : s.stack = l' ++ [a, b] := by simp [hs, hl]
    rw [popLeftRight_of_append hs'] at h
    exact .inr ⟨l', a, b, hs', h⟩

/-- Everything the two-pop form of `?` and `>` can do. -/
theorem popTopSecond_next {s t : State} {rest : Word → Word → State → Result}
    (h : popTopSecond s rest = .next t) :
    (s.depth < 2 ∧ t = (s.withStack []).withStatus (.halted .emptyStack)) ∨
    (∃ l a b, s.stack = l ++ [b, a] ∧ rest a b (s.withStack l) = .next t) := by
  rcases popLeftRight_next (rest := fun a b s => rest b a s) h with h | ⟨l, a, b, hs, h⟩
  · exact .inl h
  · exact .inr ⟨l, b, a, hs, h⟩

/-! ## Peek and rotate -/

theorem validIndex_iff (k : Word) (d : Nat) : validIndex k d = true ↔ 0 ≤ k.toInt ∧ k.toInt < d := by
  simp [validIndex]

theorem toNat_of_nonneg {k : Word} (h : 0 ≤ k.toInt) : (k.toNat : Int) = k.toInt := by
  have := BitVec.toInt_eq_toNat_cond k
  have := k.isLt
  split_ifs at * <;> omega

/-- The element at depth `k` stands above a part of the stack and below `k` others. -/
theorem elementAt_of_append {p q : List Word} {v k : Word} (h : k.toInt = q.length) :
    elementAt k (p ++ v :: q) = v := by
  have hk := toNat_of_nonneg (k := k) (by omega)
  have : positionAt k (p ++ v :: q).length = p.length := by
    simp [positionAt]; omega
  rw [elementAt, this]
  simp

/-- Rotation moves the element at depth `k` to the top and keeps the order of the others. -/
theorem rotated_of_append {p q : List Word} {v k : Word} (h : k.toInt = q.length) :
    rotated k (p ++ v :: q) = p ++ q ++ [v] := by
  have hk := toNat_of_nonneg (k := k) (by omega)
  have hpos : positionAt k (p ++ v :: q).length = p.length := by
    simp [positionAt]; omega
  rw [rotated, elementAt_of_append h, hpos]
  simp [List.eraseIdx_append_of_length_le]

/-- A valid index splits the stack at its element. -/
theorem append_of_validIndex {k : Word} {l : List Word} (h : validIndex k l.length = true) :
    ∃ p v q, l = p ++ v :: q ∧ k.toInt = q.length := by
  obtain ⟨h0, h1⟩ := (validIndex_iff k l.length).mp h
  have hk := toNat_of_nonneg h0
  refine ⟨l.take (l.length - 1 - k.toNat), l[l.length - 1 - k.toNat], l.drop (l.length - 1 - k.toNat + 1), ?_, ?_⟩
  · simp
  · simp; omega

theorem peek_of_valid {k : Word} {s : State} (h : validIndex k s.depth = true)
    (rest : Word → Result) : peek k s rest = rest (elementAt k s.stack) := by
  simp [peek, h]

theorem peek_of_invalid {k : Word} {s : State} (h : validIndex k s.depth = false)
    (rest : Word → Result) : peek k s rest = raise .invalidStackIndex s := by
  simp [peek, h]

/-- Everything a peek can do. -/
theorem peek_next {k : Word} {s t : State} {rest : Word → Result} (h : peek k s rest = .next t) :
    (validIndex k s.depth = false ∧ t = s.withStatus (.halted .invalidStackIndex)) ∨
    (validIndex k s.depth = true ∧ rest (elementAt k s.stack) = .next t) := by
  cases hv : validIndex k s.depth with
  | true => rw [peek_of_valid hv] at h; exact .inr ⟨rfl, h⟩
  | false =>
    rw [peek_of_invalid hv, raise] at h
    exact .inl ⟨rfl, (Host.Outcome.next.inj h).symm⟩

theorem rotateToTop_of_valid {k : Word} {s : State} (h : validIndex k s.depth = true)
    (rest : State → Result) : rotateToTop k s rest = rest (s.withStack (rotated k s.stack)) := by
  simp [rotateToTop, h]

theorem rotateToTop_of_invalid {k : Word} {s : State} (h : validIndex k s.depth = false)
    (rest : State → Result) : rotateToTop k s rest = raise .invalidStackIndex s := by
  simp [rotateToTop, h]

/-- Everything a rotation can do. -/
theorem rotateToTop_next {k : Word} {s t : State} {rest : State → Result}
    (h : rotateToTop k s rest = .next t) :
    (validIndex k s.depth = false ∧ t = s.withStatus (.halted .invalidStackIndex)) ∨
    (validIndex k s.depth = true ∧ rest (s.withStack (rotated k s.stack)) = .next t) := by
  cases hv : validIndex k s.depth with
  | true => rw [rotateToTop_of_valid hv] at h; exact .inr ⟨rfl, h⟩
  | false =>
    rw [rotateToTop_of_invalid hv, raise] at h
    exact .inl ⟨rfl, (Host.Outcome.next.inj h).symm⟩

/-- Rotation keeps the depth of a stack it is valid for. -/
theorem rotated_length {k : Word} {l : List Word} (h : validIndex k l.length = true) :
    (rotated k l).length = l.length := by
  obtain ⟨p, v, q, rfl, hk⟩ := append_of_validIndex h
  simp [rotated_of_append hk]

/-! ## Memory accesses -/

theorem validAddress_iff (a : Word) : validAddress a = true ↔ 0 ≤ a.toInt ∧ a.toInt < 16384 := by
  rw [validAddress, decide_eq_true_iff]
  exact Iff.rfl

/-- `a[13:0]` of a valid address is the address. -/
theorem cellPort_toNat {a : Word} (h : validAddress a = true) : (cellPort a).toNat = a.toInt.toNat := by
  obtain ⟨h0, h1⟩ := (validAddress_iff a).mp h
  have hk := toNat_of_nonneg h0
  simp only [cellPort, BitVec.extractLsb'_toNat, Nat.shiftRight_zero]
  omega

theorem memRead_of_valid {a : Word} {s : State} (h : validAddress a = true) (rest : Word → Result) :
    memRead a s rest = rest (s.mem.read (cellPort a).toNat) := by
  simp [memRead, h]

theorem memRead_of_invalid {a : Word} {s : State} (h : validAddress a = false)
    (rest : Word → Result) : memRead a s rest = raise .invalidMemoryAddress s := by
  simp [memRead, h]

/-- Everything a load's access can do. -/
theorem memRead_next {a : Word} {s t : State} {rest : Word → Result}
    (h : memRead a s rest = .next t) :
    (validAddress a = false ∧ t = s.withStatus (.halted .invalidMemoryAddress)) ∨
    (validAddress a = true ∧ rest (s.mem.read (cellPort a).toNat) = .next t) := by
  cases hv : validAddress a with
  | true => rw [memRead_of_valid hv] at h; exact .inr ⟨rfl, h⟩
  | false =>
    rw [memRead_of_invalid hv, raise] at h
    exact .inl ⟨rfl, (Host.Outcome.next.inj h).symm⟩

theorem memWrite_of_valid {a v : Word} {s : State} (h : validAddress a = true)
    (rest : State → Result) :
    memWrite a v s rest = rest (s.withMem (s.mem.write (cellPort a).toNat v)) := by
  simp [memWrite, h]

theorem memWrite_of_invalid {a v : Word} {s : State} (h : validAddress a = false)
    (rest : State → Result) : memWrite a v s rest = raise .invalidMemoryAddress s := by
  simp [memWrite, h]

/-- Everything a store's access can do. -/
theorem memWrite_next {a v : Word} {s t : State} {rest : State → Result}
    (h : memWrite a v s rest = .next t) :
    (validAddress a = false ∧ t = s.withStatus (.halted .invalidMemoryAddress)) ∨
    (validAddress a = true ∧
      rest (s.withMem (s.mem.write (cellPort a).toNat v)) = .next t) := by
  cases hv : validAddress a with
  | true => rw [memWrite_of_valid hv] at h; exact .inr ⟨rfl, h⟩
  | false =>
    rw [memWrite_of_invalid hv, raise] at h
    exact .inl ⟨rfl, (Host.Outcome.next.inj h).symm⟩

/-! ## Tests of a word -/

theorem isZero_iff (b : Word) : isZero b = true ↔ b = 0#32 := by
  simp only [isZero, decide_eq_true_eq]
  exact ⟨fun h => BitVec.eq_of_toInt_eq (by simpa using h), fun h => by simp [h]⟩

end Sys2Proof.Machine
end

