-- ==== Sys2Proof/Laws/Exec.lean ====
section
/-!
SUPPORT. Everything an instruction can do, said once: if `exec i s` answers a next state `t`, then
`Effect i s t`. An invariant over all instructions is a case analysis of `Effect`, with no meaning
unfolded.
-/

namespace Sys2Proof.Machine

/-- The result of a binary operation on the left operand `a` and the right operand `b`, none for
another instruction and for a division by zero. -/
def binaryResult : Instr → Word → Word → Option Word
  | .add, a, b => some (aluAdd a b)
  | .sub, a, b => some (aluSub a b)
  | .mul, a, b => some (aluMul a b)
  | .div, a, b => if b = 0#32 then none else some (aluDiv a b)
  | .cmp, a, b => some (compareWords a b)
  | _, _, _ => none

/-- What an instruction can make of a state, one case per outcome of its rule. -/
inductive Effect : Instr → State → State → Prop where
  | advances {i : Instr} {s : State} (hi : i = .nop ∨ i = .rsvc ∨ i = .rsvd) :
      Effect i s (s.withPc (s.pc + 1#32))
  | halts {s : State} : Effect .halt s (s.withStatus (.halted .ok))
  | pushes {s : State} {d : BitVec 4} (hroom : s.stackCapacity.isFull s.depth = false) :
      Effect (.pushd d) s ((s.withStack (s.stack ++ [digitValue d])).withPc (s.pc + 1#32))
  | full {s : State} {d : BitVec 4} (hfull : s.stackCapacity.isFull s.depth = true) :
      Effect (.pushd d) s (s.withStatus (.halted .allocationFailure))
  | short {i : Instr} {s : State} (hd : s.depth < tagPops (.instr i)) :
      Effect i s ((s.withStack []).withStatus (.halted .emptyStack))
  /-- A push after pops that meets a full storage: only where the depth exceeded the capacity. -/
  | noRoom {i : Instr} {s : State} {l popped : List Word} (hs : s.stack = l ++ popped)
      (hpopped : popped.length = tagPops (.instr i)) (hne : popped ≠ [])
      (hfull : s.stackCapacity.isFull l.length = true) :
      Effect i s ((s.withStack l).withStatus (.halted .allocationFailure))
  | binary {i : Instr} {s : State} {l : List Word} {a b r : Word} (hs : s.stack = l ++ [a, b])
      (hr : binaryResult i a b = some r) (hroom : s.stackCapacity.isFull l.length = false) :
      Effect i s ((s.withStack (l ++ [r])).withPc (s.pc + 1#32))
  | divByZero {s : State} {l : List Word} {a : Word} (hs : s.stack = l ++ [a, 0#32]) :
      Effect .div s ((s.withStack l).withStatus (.halted .divisionByZero))
  | prtd {s : State} {l : List Word} {a : Word} (hs : s.stack = l ++ [a]) :
      Effect .prtd s (((s.withStack l).withOut (s.out ++ decimal a)).withPc (s.pc + 1#32))
  | prtc {s : State} {l : List Word} {a : Word} (hs : s.stack = l ++ [a]) :
      Effect .prtc s (((s.withStack l).withOut (s.out ++ [lowByte a])).withPc (s.pc + 1#32))
  | jmp {s : State} {l : List Word} {a : Word} (hs : s.stack = l ++ [a]) :
      Effect .jmp s ((s.withStack l).withPc (w32 (s.pc.toInt + a.toInt + 1)))
  | jzTaken {s : State} {l : List Word} {a : Word} (hs : s.stack = l ++ [0#32, a]) :
      Effect .jz s ((s.withStack l).withPc (w32 (s.pc.toInt + a.toInt + 1)))
  | jzFallsThrough {s : State} {l : List Word} {a b : Word} (hs : s.stack = l ++ [b, a])
      (hb : b ≠ 0#32) : Effect .jz s ((s.withStack l).withPc (s.pc + 1#32))
  | load {s : State} {l : List Word} {a : Word} (hs : s.stack = l ++ [a])
      (ha : validAddress a = true) (hroom : s.stackCapacity.isFull l.length = false) :
      Effect .load s
        ((s.withStack (l ++ [s.mem.read (cellPort a).toNat])).withPc (s.pc + 1#32))
  | loadInvalid {s : State} {l : List Word} {a : Word} (hs : s.stack = l ++ [a])
      (ha : validAddress a = false) :
      Effect .load s ((s.withStack l).withStatus (.halted .invalidMemoryAddress))
  | store {s : State} {l : List Word} {a b : Word} (hs : s.stack = l ++ [b, a])
      (ha : validAddress a = true) :
      Effect .store s
        (((s.withStack l).withMem (s.mem.write (cellPort a).toNat b)).withPc (s.pc + 1#32))
  | storeInvalid {s : State} {l : List Word} {a b : Word} (hs : s.stack = l ++ [b, a])
      (ha : validAddress a = false) :
      Effect .store s ((s.withStack l).withStatus (.halted .invalidMemoryAddress))
  | pick {s : State} {l : List Word} {a : Word} (hs : s.stack = l ++ [a])
      (ha : validIndex a l.length = true) (hroom : s.stackCapacity.isFull l.length = false) :
      Effect .pick s ((s.withStack (l ++ [elementAt a l])).withPc (s.pc + 1#32))
  | pickInvalid {s : State} {l : List Word} {a : Word} (hs : s.stack = l ++ [a])
      (ha : validIndex a l.length = false) :
      Effect .pick s ((s.withStack l).withStatus (.halted .invalidStackIndex))
  | roll {s : State} {l : List Word} {a : Word} (hs : s.stack = l ++ [a])
      (ha : validIndex a l.length = true) :
      Effect .roll s ((s.withStack (rotated a l)).withPc (s.pc + 1#32))
  | rollInvalid {s : State} {l : List Word} {a : Word} (hs : s.stack = l ++ [a])
      (ha : validIndex a l.length = false) :
      Effect .roll s ((s.withStack l).withStatus (.halted .invalidStackIndex))
  | drop {s : State} {l : List Word} {a : Word} (hs : s.stack = l ++ [a]) :
      Effect .drop s ((s.withStack l).withPc (s.pc + 1#32))

theorem advance_next {s t : State} (h : advance s = .next t) : t = s.withPc (s.pc + 1#32) := by
  rw [advance, w32_toInt_add_one] at h
  exact (Host.Outcome.next.inj h).symm

theorem raise_next {r : RunResult} {s t : State} (h : raise r s = .next t) :
    t = s.withStatus (.halted r) :=
  (Host.Outcome.next.inj h).symm

/-- A pop of an empty stack, seen as the stack it leaves. -/
theorem pop_effect {i : Instr} {s t : State} {rest : Word → State → Result}
    (hi : tagPops (.instr i) = 1) (h : pop s rest = .next t) :
    Effect i s t ∨ ∃ l v, s.stack = l ++ [v] ∧ rest v (s.withStack l) = .next t := by
  rcases pop_next h with ⟨hs, rfl⟩ | h
  · have hd : s.depth < tagPops (.instr i) := by simp [State.depth, hs, hi]
    have he := Effect.short hd
    rw [← hs, State.withStack_self] at he
    exact .inl he
  · exact .inr h

theorem popTopSecond_effect {i : Instr} {s t : State} {rest : Word → Word → State → Result}
    (hi : tagPops (.instr i) = 2) (h : popTopSecond s rest = .next t) :
    Effect i s t ∨ ∃ l a b, s.stack = l ++ [b, a] ∧ rest a b (s.withStack l) = .next t := by
  rcases popTopSecond_next h with ⟨hd, rfl⟩ | h
  · exact .inl (Effect.short (hi ▸ hd))
  · exact .inr h

theorem popLeftRight_effect {i : Instr} {s t : State} {rest : Word → Word → State → Result}
    (hi : tagPops (.instr i) = 2) (h : popLeftRight s rest = .next t) :
    Effect i s t ∨ ∃ l a b, s.stack = l ++ [a, b] ∧ rest a b (s.withStack l) = .next t := by
  rcases popLeftRight_next h with ⟨hd, rfl⟩ | h
  · exact .inl (Effect.short (hi ▸ hd))
  · exact .inr h

/-- The push that ends an instruction which has popped something. -/
theorem push_effect {i : Instr} {s t : State} {l popped : List Word} {v : Word}
    (hs : s.stack = l ++ popped) (hpopped : popped.length = tagPops (.instr i)) (hne : popped ≠ [])
    (h : push v (s.withStack l) advance = .next t) :
    Effect i s t ∨ s.stackCapacity.isFull l.length = false ∧
      t = (s.withStack (l ++ [v])).withPc (s.pc + 1#32) := by
  rcases push_next h with ⟨hfull, rfl⟩ | ⟨hroom, h⟩
  · exact .inl (Effect.noRoom hs hpopped hne hfull)
  · exact .inr ⟨hroom, advance_next h⟩

theorem binary_effect {i : Instr} {s t : State} {f : Word → Word → Word}
    (hi : tagPops (.instr i) = 2) (hf : ∀ a b, binaryResult i a b = some (f a b))
    (h : binary f s = .next t) : Effect i s t := by
  rcases popLeftRight_effect hi h with he | ⟨l, a, b, hs, h⟩
  · exact he
  rcases push_effect hs (i := i) (by simp [hi]) (by simp) h with he | ⟨hroom, rfl⟩
  · exact he
  · exact Effect.binary hs (hf a b) hroom

/-- Everything an instruction can do. -/
theorem exec_effect {i : Instr} {s t : State} (h : exec i s = .next t) : Effect i s t := by
  cases i with
  | nop => rw [advance_next h]; exact .advances (.inl rfl)
  | rsvc => rw [advance_next h]; exact .advances (.inr (.inl rfl))
  | rsvd => rw [advance_next h]; exact .advances (.inr (.inr rfl))
  | halt => rw [raise_next h]; exact .halts
  | pushd d =>
    rcases push_next h with ⟨hfull, rfl⟩ | ⟨hroom, h⟩
    · exact .full hfull
    · rw [advance_next h]; exact .pushes hroom
  | add => exact binary_effect rfl (fun _ _ => rfl) h
  | sub => exact binary_effect rfl (fun _ _ => rfl) h
  | mul => exact binary_effect rfl (fun _ _ => rfl) h
  | cmp => exact binary_effect rfl (fun _ _ => rfl) h
  | div =>
    rcases popLeftRight_effect (i := .div) rfl h with he | ⟨l, a, b, hs, h⟩
    · exact he
    by_cases hb : b = 0#32
    · subst hb
      rw [raise_next (show raise .divisionByZero (s.withStack l) = .next t from h)]
      exact .divByZero hs
    · have hz : isZero b = false := by
        rw [Bool.eq_false_iff, ne_eq, isZero_iff]; exact hb
      rw [hz] at h
      rcases push_effect hs (i := .div) rfl (by simp) h with he | ⟨hroom, rfl⟩
      · exact he
      · exact .binary hs (if_neg hb) hroom
  | prtd =>
    rw [exec, execPrtd, popTop] at h
    rcases pop_effect (i := .prtd) rfl h with he | ⟨l, a, hs, h⟩
    · exact he
    · rw [advance_next h]; exact .prtd hs
  | prtc =>
    rw [exec, execPrtc, popTop] at h
    rcases pop_effect (i := .prtc) rfl h with he | ⟨l, a, hs, h⟩
    · exact he
    · rw [advance_next h]; exact .prtc hs
  | jmp =>
    rw [exec, execJmp, popTop] at h
    rcases pop_effect (i := .jmp) rfl h with he | ⟨l, a, hs, h⟩
    · exact he
    · rw [← Host.Outcome.next.inj h]; exact .jmp hs
  | jz =>
    rcases popTopSecond_effect (i := .jz) rfl h with he | ⟨l, a, b, hs, h⟩
    · exact he
    by_cases hb : b = 0#32
    · subst hb
      rw [← Host.Outcome.next.inj (show jumpBy a (s.withStack l) = .next t from h)]
      exact .jzTaken hs
    · have hz : isZero b = false := by
        rw [Bool.eq_false_iff, ne_eq, isZero_iff]; exact hb
      rw [hz] at h
      rw [advance_next h]
      exact .jzFallsThrough hs hb
  | load =>
    rw [exec, execLoad, popTop] at h
    rcases pop_effect (i := .load) rfl h with he | ⟨l, a, hs, h⟩
    · exact he
    rcases memRead_next h with ⟨ha, rfl⟩ | ⟨ha, h⟩
    · exact .loadInvalid hs ha
    rcases push_effect hs (i := .load) rfl (by simp) h with he | ⟨hroom, rfl⟩
    · exact he
    · exact .load hs ha hroom
  | store =>
    rcases popTopSecond_effect (i := .store) rfl h with he | ⟨l, a, b, hs, h⟩
    · exact he
    rcases memWrite_next h with ⟨ha, rfl⟩ | ⟨ha, h⟩
    · exact .storeInvalid hs ha
    · rw [advance_next h]; exact .store hs ha
  | pick =>
    rw [exec, execPick, popTop] at h
    rcases pop_effect (i := .pick) rfl h with he | ⟨l, a, hs, h⟩
    · exact he
    rcases peek_next h with ⟨ha, rfl⟩ | ⟨ha, h⟩
    · exact .pickInvalid hs ha
    rcases push_effect hs (i := .pick) rfl (by simp) h with he | ⟨hroom, rfl⟩
    · exact he
    · exact .pick hs ha hroom
  | roll =>
    rw [exec, execRoll, popTop] at h
    rcases pop_effect (i := .roll) rfl h with he | ⟨l, a, hs, h⟩
    · exact he
    rcases rotateToTop_next h with ⟨ha, rfl⟩ | ⟨ha, h⟩
    · exact .rollInvalid hs ha
    · rw [advance_next h]; exact .roll hs ha
  | drop =>
    rw [exec, execDrop, popTop] at h
    rcases pop_effect (i := .drop) rfl h with he | ⟨l, a, hs, h⟩
    · exact he
    · rw [advance_next h]; exact .drop hs

/-! ## An operation answers a next state whenever what follows it does -/

theorem pop_completes {s : State} {rest : Word → State → Result}
    (h : ∀ v s, ∃ t, rest v s = .next t) : ∃ t, pop s rest = .next t := by
  unfold pop
  split
  · exact ⟨_, rfl⟩
  · exact h _ _

theorem push_completes {v : Word} {s : State} {rest : State → Result}
    (h : ∀ s, ∃ t, rest s = .next t) : ∃ t, push v s rest = .next t := by
  unfold push
  split
  · exact ⟨_, rfl⟩
  · exact h _

theorem popLeftRight_completes {s : State} {rest : Word → Word → State → Result}
    (h : ∀ a b s, ∃ t, rest a b s = .next t) : ∃ t, popLeftRight s rest = .next t :=
  pop_completes fun _ _ => pop_completes fun _ _ => h _ _ _

theorem popTopSecond_completes {s : State} {rest : Word → Word → State → Result}
    (h : ∀ a b s, ∃ t, rest a b s = .next t) : ∃ t, popTopSecond s rest = .next t :=
  pop_completes fun _ _ => pop_completes fun _ _ => h _ _ _

theorem peek_completes {k : Word} {s : State} {rest : Word → Result}
    (h : ∀ v, ∃ t, rest v = .next t) : ∃ t, peek k s rest = .next t := by
  unfold peek
  split
  · exact h _
  · exact ⟨_, rfl⟩

theorem rotateToTop_completes {k : Word} {s : State} {rest : State → Result}
    (h : ∀ s, ∃ t, rest s = .next t) : ∃ t, rotateToTop k s rest = .next t := by
  unfold rotateToTop
  split
  · exact h _
  · exact ⟨_, rfl⟩

theorem memRead_completes {a : Word} {s : State} {rest : Word → Result}
    (h : ∀ v, ∃ t, rest v = .next t) : ∃ t, memRead a s rest = .next t := by
  unfold memRead
  split
  · exact h _
  · exact ⟨_, rfl⟩

theorem memWrite_completes {a v : Word} {s : State} {rest : State → Result}
    (h : ∀ s, ∃ t, rest s = .next t) : ∃ t, memWrite a v s rest = .next t := by
  unfold memWrite
  split
  · exact h _
  · exact ⟨_, rfl⟩

theorem advance_completes (s : State) : ∃ t, advance s = .next t := ⟨_, rfl⟩

theorem raise_completes (r : RunResult) (s : State) : ∃ t, raise r s = .next t := ⟨_, rfl⟩

end Sys2Proof.Machine
end

