-- ==== Sys2Proof/Laws/Memory.lean ====
section
/-!
SUPPORT. Data memory: every operation keeps the canonical form (20_memory.md R40), and a read after a
write gives the written word at the written cell and the old word elsewhere (R43, R51).
-/

namespace Sys2Proof.Machine

theorem Memory.wfFrom_cons {lo a : Nat} {v : Word} {m : Memory} :
    Memory.wfFrom lo ((a, v) :: m) = true ↔
      lo ≤ a ∧ a < 16384 ∧ v ≠ 0#32 ∧ Memory.wfFrom (a + 1) m = true := by
  simp only [Memory.wfFrom, Bool.and_eq_true, decide_eq_true_iff, and_assoc]
  exact Iff.rfl

theorem Memory.wfFrom_mono {lo lo' : Nat} {m : Memory} (hle : lo' ≤ lo)
    (h : Memory.wfFrom lo m = true) : Memory.wfFrom lo' m = true := by
  cases m with
  | nil => rfl
  | cons c m =>
    obtain ⟨a, v⟩ := c
    rw [Memory.wfFrom_cons] at *
    exact ⟨by omega, h.2⟩

/-- A cell below every listed one reads as zero. -/
theorem Memory.read_of_lt {lo a : Nat} {m : Memory} (h : Memory.wfFrom lo m = true) (hlt : a < lo) :
    Memory.read m a = 0#32 := by
  induction m generalizing lo with
  | nil => rfl
  | cons c m ih =>
    obtain ⟨b, w⟩ := c
    rw [Memory.wfFrom_cons] at h
    have hne : a ≠ b := by omega
    simp only [Memory.read, hne, if_false]
    exact ih h.2.2.2 (by omega)

theorem Memory.write_wfFrom {lo a : Nat} {v : Word} {m : Memory} (h : Memory.wfFrom lo m = true)
    (hlo : lo ≤ a) (ha : a < 16384) : Memory.wfFrom lo (Memory.write m a v) = true := by
  induction m generalizing lo with
  | nil =>
    by_cases hv : v = 0#32
    · simp [Memory.write, hv, Memory.wfFrom]
    · simp only [Memory.write, hv, if_false]
      exact Memory.wfFrom_cons.mpr ⟨hlo, ha, hv, rfl⟩
  | cons c m ih =>
    obtain ⟨b, w⟩ := c
    have h' := Memory.wfFrom_cons.mp h
    simp only [Memory.write]
    split_ifs with hab hv hab' hv
    · exact h
    · exact Memory.wfFrom_cons.mpr ⟨hlo, ha, hv, Memory.wfFrom_cons.mpr ⟨by omega, h'.2⟩⟩
    · exact Memory.wfFrom_mono (by omega) h'.2.2.2
    · subst hab'
      exact Memory.wfFrom_cons.mpr ⟨hlo, ha, hv, h'.2.2.2⟩
    · exact Memory.wfFrom_cons.mpr ⟨h'.1, h'.2.1, h'.2.2.1, ih h'.2.2.2 (by omega)⟩

/-- A write of a valid cell keeps the canonical form. -/
theorem Memory.write_wf {a : Nat} {v : Word} {m : Memory} (h : m.wf = true) (ha : a < 16384) :
    (Memory.write m a v).wf = true :=
  Memory.write_wfFrom h (Nat.zero_le _) ha

theorem Memory.read_writeFrom {lo a i : Nat} {v : Word} {m : Memory}
    (h : Memory.wfFrom lo m = true) :
    Memory.read (Memory.write m a v) i = if i = a then v else Memory.read m i := by
  induction m generalizing lo with
  | nil =>
    by_cases hv : v = 0#32
    · subst hv; simp [Memory.write, Memory.read]
    · simp only [Memory.write, hv, if_false, Memory.read]
  | cons c m ih =>
    obtain ⟨b, w⟩ := c
    have h' := Memory.wfFrom_cons.mp h
    have below : ∀ j, j ≤ b → Memory.read m j = 0#32 := fun j hj =>
      Memory.read_of_lt h'.2.2.2 (by omega)
    rcases lt_trichotomy a b with hab | hab | hab
    · by_cases hv : v = 0#32
      · simp only [Memory.write, hab, hv, if_true, Memory.read]
        by_cases hia : i = a
        · rw [if_neg (by omega), if_pos hia, below i (by omega)]
        · rw [if_neg hia]
      · simp only [Memory.write, hab, hv, if_true, if_false, Memory.read]
    · subst hab
      by_cases hv : v = 0#32
      · simp only [Memory.write, lt_irrefl, hv, if_true, if_false, Memory.read]
        by_cases hia : i = a
        · rw [if_pos hia, below i (by omega)]
        · rw [if_neg hia, if_neg hia]
      · simp only [Memory.write, lt_irrefl, hv, if_true, if_false, Memory.read]
        by_cases hia : i = a
        · rw [if_pos hia, if_pos hia]
        · rw [if_neg hia, if_neg hia, if_neg hia]
    · have h1 : ¬a < b := by omega
      have h2 : ¬a = b := by omega
      simp only [Memory.write, h1, h2, if_false, Memory.read, ih h'.2.2.2]
      by_cases hib : i = b
      · rw [if_pos hib, if_neg (by omega), if_pos hib]
      · rw [if_neg hib, if_neg hib]

/-- A read after a write. -/
theorem Memory.read_write {a i : Nat} {v : Word} {m : Memory} (h : m.wf = true) :
    Memory.read (Memory.write m a v) i = if i = a then v else Memory.read m i :=
  Memory.read_writeFrom h

theorem initMemoryFrom_wfFrom {a : Nat} {values : List Word} (h : a + values.length ≤ 16384) :
    Memory.wfFrom a (initMemoryFrom a values) = true := by
  induction values generalizing a with
  | nil => rfl
  | cons v vs ih =>
    rw [List.length_cons] at h
    have ih' := ih (a := a + 1) (by omega)
    simp only [initMemoryFrom]
    split_ifs with hv
    · exact Memory.wfFrom_mono (by omega) ih'
    · exact Memory.wfFrom_cons.mpr ⟨le_refl a, by omega, hv, ih'⟩

/-- Memory at the start of a run has the canonical form. -/
theorem initMemory_wf (values : List Word) : (initMemory values).wf = true := by
  refine initMemoryFrom_wfFrom ?_
  simp [Config.memCapacity]

/-- Memory right after reset has the canonical form. -/
theorem reset_mem_wf : State.reset.mem.wf = true := rfl

end Sys2Proof.Machine
end

