-- ==== Sys2Proof/Laws/PerInstr.lean ====
section
/-!
SUPPORT. The family of per-instruction statements: the byte of an instruction character is a printable
7-bit ASCII code (30_encoding.md R61).
-/

namespace Sys2Proof.Laws.AsciiCode

/-- The instruction's byte lies between the space and the tilde. -/
def Statement (i : Instr) : Prop := 0x20 ≤ (encode i).toNat ∧ (encode i).toNat < 0x7F

theorem nop : Statement .nop := by unfold Statement; decide

theorem pushd (digit : BitVec 4) : Statement (.pushd digit) := by
  unfold Statement; revert digit; decide

theorem add : Statement .add := by unfold Statement; decide

theorem sub : Statement .sub := by unfold Statement; decide

theorem mul : Statement .mul := by unfold Statement; decide

theorem div : Statement .div := by unfold Statement; decide

theorem cmp : Statement .cmp := by unfold Statement; decide

theorem prtd : Statement .prtd := by unfold Statement; decide

theorem prtc : Statement .prtc := by unfold Statement; decide

theorem jmp : Statement .jmp := by unfold Statement; decide

theorem jz : Statement .jz := by unfold Statement; decide

theorem load : Statement .load := by unfold Statement; decide

theorem store : Statement .store := by unfold Statement; decide

theorem pick : Statement .pick := by unfold Statement; decide

theorem roll : Statement .roll := by unfold Statement; decide

theorem drop : Statement .drop := by unfold Statement; decide

theorem rsvc : Statement .rsvc := by unfold Statement; decide

theorem rsvd : Statement .rsvd := by unfold Statement; decide

theorem halt : Statement .halt := by unfold Statement; decide

end Sys2Proof.Laws.AsciiCode
end

