-- ==== Sys2Proof/Laws/Ports.lean ====
section
/-!
SUPPORT. What one step of a run at the ports drives and does.
-/

namespace Sys2Proof.Machine

@[simp] theorem PortRun.stack_due (p : List Byte) (v : List Word) (c : StackCapacity)
    (left : List Word) : (PortRun.due p v c left).stack = left := rfl

@[simp] theorem PortRun.stack_started (s : State) : (PortRun.started s).stack = s.stack := rfl

@[simp] theorem PortRun.capacity_due (p : List Byte) (v : List Word) (c : StackCapacity)
    (left : List Word) : (PortRun.due p v c left).capacity = c := rfl

@[simp] theorem PortRun.capacity_started (s : State) :
    (PortRun.started s).capacity = s.stackCapacity := rfl

/-- Without an issue the block answers nothing and keeps its stack. -/
theorem PortRun.answer_of_idle {w : Word} {r : PortRun} (h : r.input w = .idle) :
    r.answer w = (none, r.stack) := by
  simp [PortRun.answer, h, block]

/-- The start step leads to the start of the run, whatever the block's storage held. -/
theorem PortRun.next_due (w : Word) (p : List Byte) (v : List Word) (c : StackCapacity)
    (left : List Word) : (PortRun.due p v c left).next w = .started (startRun p v c) := rfl

/-- Everything the sequencer can drive after the start action. -/
theorem PortRun.input_started (w : Word) (s : State) :
    ((PortRun.started s).input w = .idle ∧ (s.status = .running → ∃ r, fetch s = .ended r)) ∨
      ∃ b, s.status = .running ∧ fetch s = .byte b ∧
        (PortRun.started s).input w = .issue b s.pc w := by
  cases hs : s.status <;> cases hf : fetch s <;> simp [PortRun.input, hs, hf]

/-- A run that is started stays started. -/
theorem PortRun.next_started (w : Word) (s : State) :
    ∃ t, (PortRun.started s).next w = .started t := by
  cases h : ((PortRun.started s).answer w).1 <;> simp [PortRun.next, h]

/-- The end-of-run check of a running state that the fetch ends. -/
theorem endCheck_of_ended {s : State} {r : RunResult} (hs : s.status = .running)
    (hf : fetch s = .ended r) : endCheck s = s.withStatus (.halted r) := by
  simp [endCheck, hs, hf]

/-- A run that has ended is left as it is. -/
theorem endCheck_of_halted {s : State} {r : RunResult} (hs : s.status = .halted r) :
    endCheck s = s := by
  simp [endCheck, hs]

end Sys2Proof.Machine
end

