-- ==== Sys2Proof/Laws/Step.lean ====
section
/-!
SUPPORT. What the sequencer's fetch finds, and everything a step can do.
-/

namespace Sys2Proof.Machine

/-- In range, the fetch finds the byte at `pc`. -/
theorem fetch_of_inRange {s : State} {b : Byte} (h : s.pcInRange)
    (hb : s.prog[s.pc.toNat]? = some b) : fetch s = .byte b := by
  have h1 : ¬s.pc.toInt = s.programLength := by omega
  have h2 : ¬(s.pc.toInt < 0 ∨ (s.programLength : Int) < s.pc.toInt) := by omega
  simp [fetch, h1, h2, hb]

theorem fetch_of_end {s : State} (h : s.pc.toInt = s.programLength) : fetch s = .ended .ok := by
  simp [fetch, h]

theorem fetch_of_outOfBounds {s : State}
    (h : s.pc.toInt < 0 ∨ (s.programLength : Int) < s.pc.toInt) :
    fetch s = .ended .programCounterOutOfBounds := by
  have h1 : ¬s.pc.toInt = s.programLength := by omega
  simp only [fetch, h1, h, if_true, if_false]

/-- A fetched byte is the one at a `pc` in range. -/
theorem fetch_byte {s : State} {b : Byte} (h : fetch s = .byte b) :
    s.pcInRange ∧ s.prog[s.pc.toNat]? = some b := by
  unfold fetch at h
  split_ifs at h with h1 h2
  have hr : s.pcInRange := by omega
  have hk := toNat_of_nonneg hr.1
  have hlt : s.pc.toNat < s.prog.length := by
    have := hr.2
    unfold State.programLength at this
    omega
  refine ⟨hr, ?_⟩
  rw [List.getD_eq_getElem _ _ hlt] at h
  rw [List.getElem?_eq_getElem hlt, Fetched.byte.inj h]

/-- A `pc` in range has a byte. -/
theorem byte_of_inRange {s : State} (h : s.pcInRange) : ∃ b, s.prog[s.pc.toNat]? = some b := by
  have hk := toNat_of_nonneg h.1
  have hlt : s.pc.toNat < s.prog.length := by
    have := h.2
    unfold State.programLength at this
    omega
  exact ⟨_, List.getElem?_eq_getElem hlt⟩

/-- Everything a step can do. -/
theorem step_next {s t : State} (h : step s = .next t) :
    s.status = .running ∧
    ((∃ r, fetch s = .ended r ∧ t = s.withStatus (.halted r)) ∨
      (∃ b i, fetch s = .byte b ∧ decode b = .instr i ∧ Effect i s t) ∨
      ∃ b, fetch s = .byte b ∧ decode b = .illegal ∧
        t = s.withStatus (.halted .unknownInstruction)) := by
  unfold step at h
  cases hs : s.status with
  | halted r => simp [hs] at h
  | running =>
    refine ⟨rfl, ?_⟩
    simp only [hs] at h
    cases hf : fetch s with
    | ended r =>
      simp only [hf] at h
      exact .inl ⟨r, rfl, raise_next h⟩
    | byte b =>
      simp only [hf] at h
      cases hd : decode b with
      | instr i =>
        simp only [hd] at h
        exact .inr (.inl ⟨b, i, rfl, hd, exec_effect h⟩)
      | illegal =>
        simp only [hd] at h
        exact .inr (.inr ⟨b, rfl, hd, raise_next h⟩)

/-- A byte placed for the next fetch is what the next step fetches, and the run goes on. -/
theorem fetch_placeAtFetch (s : State) (b : Byte) :
    (placeAtFetch s b).status = .running ∧ fetch (placeAtFetch s b) = .byte b := by
  unfold placeAtFetch
  split_ifs with h
  · have hk := toNat_of_nonneg h.1
    have hle : s.pc.toNat ≤ s.prog.length := by
      have := h.2.1
      unfold State.programLength at this
      omega
    refine ⟨rfl, fetch_of_inRange ⟨h.1, ?_⟩ ?_⟩
    · simp only [State.programLength, placeByte]
      simp
      omega
    · simp [placeByte, hle]
  · refine ⟨rfl, fetch_of_inRange ⟨by simp, ?_⟩ (by simp [placeByte])⟩
    simp [State.programLength, placeByte]

end Sys2Proof.Machine
end

