-- ==== Sys2Proof/Tests/Slice0.lean ====
section
/-!
SUPPORT. The model's own tests. Expected values are those of spec/95_test_vectors.md (its vector is
named beside a test) or are worked out by hand from the rule a test names. After them, for every
statement that has hypotheses, a concrete state and operands that meet them, one for each clause, at
a boundary value where the clause has a range.
-/

namespace Sys2Proof.Tests

open Sys2Proof.Machine Sys2Proof.Claims

/-! ## Helpers -/

/-- A running state with this stack, running this program from `pc`. -/
def stateOf (stack : List Word) (prog : List Byte := []) (pc : Word := 0#32) : State :=
  { State.reset with stack := stack, prog := prog, pc := pc }

/-- The same with a bounded storage. -/
def bounded (n : Nat) (s : State) : State := { s with stackCapacity := .cells n }

/-- The state a meaning or a step answers, if it answers one. -/
def after : Result → Option State
  | .next t => some t
  | .fault _ => none
  | .refused _ => none

/-- The stack, the output and the status of that state. -/
def shows (r : Result) : Option (List Int × List Byte × Status) :=
  (after r).map fun t => (t.stack.map BitVec.toInt, t.out, t.status)

/-! ## Well-formedness -/

theorem test_wellFormed_refuses_digit_ten : Instr.wellFormed (.pushd 10) = false := by decide

theorem test_wellFormed_refuses_digit_fifteen : Instr.wellFormed (.pushd 15) = false := by decide

theorem test_wellFormed_accepts_digit_nine : Instr.wellFormed (.pushd 9) = true := by decide

/-! ## Decoding: the words of 30_encoding.md R62, bit by bit -/

theorem test_decode_nop : decode 0b00100000#8 = .instr .nop := by decide

theorem test_decode_add : decode 0b00101011#8 = .instr .add := by decide

theorem test_decode_sub : decode 0b00101101#8 = .instr .sub := by decide

theorem test_decode_mul : decode 0b00101010#8 = .instr .mul := by decide

theorem test_decode_div : decode 0b00101111#8 = .instr .div := by decide

theorem test_decode_cmp : decode 0b00111010#8 = .instr .cmp := by decide

theorem test_decode_prtd : decode 0b01110000#8 = .instr .prtd := by decide

theorem test_decode_prtc : decode 0b01010000#8 = .instr .prtc := by decide

theorem test_decode_jmp : decode 0b01100111#8 = .instr .jmp := by decide

theorem test_decode_jz : decode 0b00111111#8 = .instr .jz := by decide

theorem test_decode_load : decode 0b00111100#8 = .instr .load := by decide

theorem test_decode_store : decode 0b00111110#8 = .instr .store := by decide

theorem test_decode_pick : decode 0b01011110#8 = .instr .pick := by decide

theorem test_decode_roll : decode 0b01110110#8 = .instr .roll := by decide

theorem test_decode_drop : decode 0b01100100#8 = .instr .drop := by decide

theorem test_decode_rsvc : decode 0b01100011#8 = .instr .rsvc := by decide

theorem test_decode_rsvd : decode 0b00100100#8 = .instr .rsvd := by decide

theorem test_decode_halt : decode 0b00100001#8 = .instr .halt := by decide

/-- V-DEC-2. -/
theorem test_decode_digit_0 : decode 0b00110000#8 = .instr (.pushd 0) := by decide

/-- V-DEC-2. -/
theorem test_decode_digit_5 : decode 0b00110101#8 = .instr (.pushd 5) := by decide

/-- V-DEC-2. -/
theorem test_decode_digit_9 : decode 0b00111001#8 = .instr (.pushd 9) := by decide

/-- V-DEC-3, V-DEC-4, V-DEC-5. -/
theorem test_decode_illegal : ∀ b ∈ [0x3B#8, 0x3D#8, 0x00#8, 0x09#8, 0x0A#8, 0x7F#8, 0x80#8, 0xFF#8,
    0x47#8, 0x56#8, 0x44#8, 0x43#8, 0x7A#8], decode b = .illegal := by decide

theorem test_decodeTableWord_store : decodeTableWord 8 0x3E = some .store := by decide

theorem test_decodeTableWord_digit : decodeTableWord 8 0x37 = some (.pushd 7) := by decide

theorem test_decodeTableWord_unmapped : decodeTableWord 8 0x7A = none := by decide

/-! ## One step of each instruction -/

/-- V-NOP-1, one step. -/
theorem test_nop :
    shows (exec .nop (stateOf [5#32])) =
    some ([5], [], .running) := by decide

/-- 40_literal_nop.md R81, its example. -/
theorem test_pushd :
    shows (exec (.pushd 7) (stateOf [])) =
    some ([7], [], .running) := by decide

/-- V-PSH-2, its last step. -/
theorem test_pushd_full :
    shows (exec (.pushd 3) (bounded 2 (stateOf [1#32, 2#32]))) =
    some ([1, 2], [], .halted .allocationFailure) := by decide

/-- V-ADD-2. -/
theorem test_add_wraps :
    shows (exec .add (stateOf [2147483647#32, 1#32])) =
    some ([-2147483648], [], .running) := by decide

/-- V-ALU-P5 for R90. -/
theorem test_add_consumes_the_one_operand :
    shows (exec .add (stateOf [5#32])) =
    some ([], [], .halted .emptyStack) := by decide

/-- V-SUB-2. -/
theorem test_sub_is_second_minus_top :
    shows (exec .sub (stateOf [3#32, 5#32])) =
    some ([-2], [], .running) := by decide

/-- V-SUB-4. -/
theorem test_sub_wraps :
    shows (exec .sub (stateOf [0#32, 2147483648#32])) =
    some ([-2147483648], [], .running) := by decide

/-- V-MUL-3. -/
theorem test_mul_wraps :
    shows (exec .mul (stateOf [46341#32, 46341#32])) =
    some ([-2147479015], [], .running) := by decide

/-- V-DIV-2. -/
theorem test_div_truncates :
    shows (exec .div (stateOf [4294967289#32, 2#32])) =
    some ([-3], [], .running) := by decide

/-- V-DIV-6. -/
theorem test_div_by_zero :
    shows (exec .div (stateOf [5#32, 0#32])) =
    some ([], [], .halted .divisionByZero) := by decide

/-- V-CMP-4. -/
theorem test_cmp_is_exact :
    shows (exec .cmp (stateOf [2147483648#32, 2147483647#32])) =
    some ([-1], [], .running) := by decide

/-- V-OUT-7. -/
theorem test_prtd_least_word :
    shows (exec .prtd (stateOf [2147483648#32])) =
    some ([], [0x2D#8, 0x32#8, 0x31#8, 0x34#8, 0x37#8, 0x34#8, 0x38#8, 0x33#8, 0x36#8, 0x34#8, 0x38#8], .running) := by decide

/-- 42_output.md R100, zero prints one digit. -/
theorem test_prtd_zero :
    shows (exec .prtd (stateOf [0#32])) =
    some ([], [0x30#8], .running) := by decide

/-- 42_output.md R101, a = -1 writes 0xFF. -/
theorem test_prtc_low_byte :
    shows (exec .prtc (stateOf [4294967295#32])) =
    some ([], [0xFF#8], .running) := by decide

/-- V-JMP-5: the wrapped target. -/
theorem test_jmp_wraps : (after (exec .jmp (stateOf [2147483647#32]))).map (fun t => t.pc.toInt) =
    some (-2147483648) := by decide

/-- Step 16 of trace T1: pc 16, offset 2, to 19. -/
theorem test_jmp_adds_one : (after (exec .jmp (stateOf [2#32] [] 16#32))).map (fun t => t.pc.toInt) =
    some 19 := by decide

/-- 43_control.md R111, its example: offset 4, condition -1, no jump. -/
theorem test_jz_falls_through :
    (after (exec .jz (stateOf [4294967295#32, 4#32] [] 12#32))).map (fun t => t.pc.toInt) = some 13 := by
  decide

/-- V-JZ-1: condition 0 jumps. -/
theorem test_jz_jumps : (after (exec .jz (stateOf [0#32, 2#32] [] 2#32))).map (fun t => t.pc.toInt) =
    some 5 := by decide

/-- V-MEM-3. -/
theorem test_load_initial_value :
    shows (exec .load { stateOf [3#32] with mem := initMemory [10#32, 20#32, 30#32, 40#32] }) =
    some ([40], [], .running) := by decide

/-- V-MEM-8. -/
theorem test_load_out_of_range :
    shows (exec .load (stateOf [16384#32])) =
    some ([], [], .halted .invalidMemoryAddress) := by decide

/-- V-MEM-9: the top is the address. -/
theorem test_store_last_cell : (after (exec .store (stateOf [9#32, 16383#32]))).map (fun t => t.mem) =
    some [(16383, 9#32)] := by decide

/-- Storing the value an unlisted cell reads as unlists the cell. -/
theorem test_store_zero_unlists :
    (after (exec .store { stateOf [0#32, 3#32] with mem := [(3, 7#32)] })).map (fun t => t.mem) =
    some [] := by decide

/-- step 6 of trace T1. -/
theorem test_pick :
    shows (exec .pick (stateOf [1#32, 2#32, 3#32, 4#32, 5#32, 1#32])) =
    some ([1, 2, 3, 4, 5, 4], [], .running) := by decide

/-- V-STK-2. -/
theorem test_pick_negative :
    shows (exec .pick (stateOf [1#32, 4294967295#32])) =
    some ([1], [], .halted .invalidStackIndex) := by decide

/-- step 8 of trace T1. -/
theorem test_roll :
    shows (exec .roll (stateOf [1#32, 2#32, 3#32, 4#32, 5#32, 4#32, 2#32])) =
    some ([1, 2, 3, 5, 4, 4], [], .running) := by decide

/-- V-STK-8. -/
theorem test_roll_out_of_range :
    shows (exec .roll (stateOf [2#32, 1#32])) =
    some ([2], [], .halted .invalidStackIndex) := by decide

/-- V-STK-9 and R132. -/
theorem test_drop :
    shows (exec .drop (stateOf [1#32, 2#32])) =
    some ([1], [], .running) := by decide

/-- V-SYS-1. -/
theorem test_rsvc :
    shows (exec .rsvc (stateOf [4#32])) =
    some ([4], [], .running) := by decide

/-- V-SYS-2. -/
theorem test_rsvd :
    shows (exec .rsvd (stateOf [1#32])) =
    some ([1], [], .running) := by decide

/-- V-SYS-3. -/
theorem test_halt :
    shows (exec .halt (stateOf [1#32])) =
    some ([1], [], .halted .ok) := by decide

/-! ## The step -/

/-- V-SYS-4. -/
theorem test_step_illegal : shows (step (stateOf [] [0x7A#8])) =
    some ([], [], .halted .unknownInstruction) := by decide

/-- 70_reset_and_hazards.md R181: the first step from reset, nothing placed. -/
theorem test_step_reset : shows (step State.reset) = some ([], [], .halted .ok) := by decide

/-- V-JMP-3, its last step. -/
theorem test_step_negative_pc : shows (step (stateOf [] [0x20#8] 4294967295#32)) =
    some ([], [], .halted .programCounterOutOfBounds) := by decide

theorem test_withFetchWord_runs_the_word : shows (step (State.reset.withFetchWord 8 0x37)) =
    some ([7], [], .running) := by decide

/-- 10_state.md R19, 60_exceptions.md R150: AllocationFailure is code 7 and halted bit 3. -/
theorem test_statusBits : statusBits (.halted .allocationFailure) = 0b1111#4 := by decide

/-- 93_implementation_defined.md U3: the other rounding direction differs on -7 / 2. -/
theorem test_quotient_floor : quotient .floor (-7) 2 = -4 := by decide

/-! ## Witnesses: the hypotheses of each statement, clause by clause -/

theorem witness_DecoderFollowsTheOpcodeMap :
    ((0x39#8, Instr.pushd 9) ∈ opcodeMap) ∧ 0x3B#8 ∉ opcodeMap.map Prod.fst := by decide

theorem witness_PushdPushesTheDigit_room : (9#4).toNat ≤ 9 ∧
    (bounded 1 (stateOf [])).stackCapacity ≠ .cells (bounded 1 (stateOf [])).depth := by decide

theorem witness_PushdPushesTheDigit_full : (9#4).toNat ≤ 9 ∧
    (bounded 1 (stateOf [4#32])).stackCapacity = .cells (bounded 1 (stateOf [4#32])).depth := by decide

theorem witness_PushdPushesTheDigit_only : ∃ t, (bounded 1 (stateOf [4#32])).Inv ∧
    (bounded 1 (stateOf [4#32])).status = .running ∧
    exec (.pushd 0) (bounded 1 (stateOf [4#32])) = .next t ∧
    t.status = .halted .allocationFailure :=
  ⟨_, by decide, by decide, rfl, by decide⟩

theorem witness_UnmappedByteEndsTheRunAsUnknown :
    (stateOf [] [0x7A#8]).status = .running ∧ (stateOf [] [0x7A#8]).pcInRange ∧
      (stateOf [] [0x7A#8]).prog[(stateOf [] [0x7A#8]).pc.toNat]? = some 0x7A#8 ∧
      0x7A#8 ∉ opcodeMap.map Prod.fst := by decide

theorem witness_AddPushesTheWrappedSum :
    (bounded 2 (stateOf [2147483648#32, 4294967295#32])).Inv ∧
      (bounded 2 (stateOf [2147483648#32, 4294967295#32])).stack =
        [] ++ [2147483648#32, 4294967295#32] ∧
      (stateOf [0#32]).depth < 2 ∧ (stateOf []).depth < 2 := by decide

theorem witness_SubPushesTheWrappedDifference :
    (bounded 2 (stateOf [2147483648#32, 4294967295#32])).Inv ∧
      (bounded 2 (stateOf [2147483648#32, 4294967295#32])).stack =
        [] ++ [2147483648#32, 4294967295#32] ∧
      (stateOf [0#32]).depth < 2 ∧ (stateOf []).depth < 2 := by decide

theorem witness_MulPushesTheWrappedProduct :
    (bounded 2 (stateOf [2147483648#32, 4294967295#32])).Inv ∧
      (bounded 2 (stateOf [2147483648#32, 4294967295#32])).stack =
        [] ++ [2147483648#32, 4294967295#32] ∧
      (stateOf [0#32]).depth < 2 ∧ (stateOf []).depth < 2 := by decide

theorem witness_CmpPushesTheSignedComparison :
    (bounded 2 (stateOf [2147483648#32, 4294967295#32])).Inv ∧
      (bounded 2 (stateOf [2147483648#32, 4294967295#32])).stack =
        [] ++ [2147483648#32, 4294967295#32] ∧
      (stateOf [0#32]).depth < 2 ∧ (stateOf []).depth < 2 := by decide

theorem witness_DivPushesTheTruncatedQuotient :
    (bounded 2 (stateOf [2147483648#32, 4294967295#32])).Inv ∧
      (bounded 2 (stateOf [2147483648#32, 4294967295#32])).stack =
        [] ++ [2147483648#32, 4294967295#32] ∧ 4294967295#32 ≠ 0#32 ∧
      (stateOf [5#32, 0#32]).stack = [] ++ [5#32, 0#32] ∧
      (stateOf [0#32]).depth < 2 ∧ (stateOf []).depth < 2 := by decide

theorem witness_PrtdWritesTheDecimalRepresentation :
    (stateOf [2147483647#32]).stack = [] ++ [2147483647#32] ∧ (stateOf []).depth = 0 := by decide

theorem witness_PrtcWritesTheResidueModulo256 :
    (stateOf [2147483647#32]).stack = [] ++ [2147483647#32] ∧ (stateOf []).depth = 0 := by decide

theorem witness_JmpAddsTheOperandPlusOne_wraps :
    (stateOf [2147483647#32]).stack = [] ++ [2147483647#32] ∧ (stateOf []).depth = 0 := by decide

theorem witness_DropDiscardsTheTop :
    (stateOf [2147483647#32]).stack = [] ++ [2147483647#32] ∧ (stateOf []).depth = 0 := by decide

theorem witness_OutputIsAppendOnly : ∃ t, step (stateOf [1#32] [0x64#8]) = .next t ∧
    fetch (stateOf [1#32] [0x64#8]) ≠ .byte 0x70#8 ∧ fetch (stateOf [1#32] [0x64#8]) ≠ .byte 0x50#8 :=
  ⟨_, rfl, by decide, by decide⟩

theorem witness_OutputInfluencesNothing : ∃ t, step (stateOf [1#32] [0x70#8]) = .next t := ⟨_, rfl⟩

theorem witness_JmpAddsTheOperandPlusOne_end : ∃ t, (stateOf [0#32] [0x30#8, 0x67#8] 1#32).status = .running ∧
    exec .jmp (stateOf [0#32] [0x30#8, 0x67#8] 1#32) = .next t ∧ t.pc.toInt = t.programLength :=
  ⟨_, by decide, rfl, by decide⟩

theorem witness_JmpAddsTheOperandPlusOne_outside :
    ∃ t u, exec .jmp (stateOf [1#32] [0x31#8, 0x67#8] 1#32) = .next t ∧
      (t.programLength : Int) < t.pc.toInt ∧
      exec .jmp (stateOf [4294967294#32] [0x67#8]) = .next u ∧ u.pc.toInt < 0 :=
  ⟨_, _, rfl, by decide, rfl, by decide⟩

theorem witness_JzJumpsOnlyOnZero :
    (stateOf [0#32]).depth < 2 ∧ (stateOf [0#32, 0#32]).stack = [] ++ [0#32, 0#32] ∧
      (stateOf [4294967295#32, 4#32]).stack = [] ++ [4294967295#32, 4#32] ∧ 4294967295#32 ≠ 0#32 := by decide

/-- V-JMP-5: the sum 2^31 wraps; and the jumps to -1, to 0 and to `L`. -/
theorem witness_JumpWrapIsUnobservableInTheResult_jmp :
    ∀ n ∈ [2147483647, 4294967294, 4294967295, 0],
      let a := BitVec.ofNat 32 n
      (stateOf [a] [0x67#8]).Inv ∧ (stateOf [a] [0x67#8]).status = .running ∧ (stateOf [a] [0x67#8]).pcInRange ∧
        fetch (stateOf [a] [0x67#8]) = .byte 0x67#8 ∧ (stateOf [a] [0x67#8]).stack = [] ++ [a] := by
  decide

theorem witness_JumpWrapIsUnobservableInTheResult_jz :
    (stateOf [0#32, 2147483647#32] [0x3F#8]).Inv ∧ (stateOf [0#32, 2147483647#32] [0x3F#8]).pcInRange ∧
      (stateOf [0#32, 2147483647#32] [0x3F#8]).status = .running ∧
      fetch (stateOf [0#32, 2147483647#32] [0x3F#8]) = .byte 0x3F#8 ∧
      (stateOf [0#32, 2147483647#32] [0x3F#8]).stack = [] ++ [0#32, 2147483647#32] := by
  decide

theorem witness_LoadPushesTheAddressedCell_valid :
    ∀ n ∈ [0, 16383],
      let a := BitVec.ofNat 32 n
      (bounded 1 (stateOf [a])).Inv ∧ (bounded 1 (stateOf [a])).stack = [] ++ [a] ∧
      0 ≤ a.toInt ∧ a.toInt < 16384 := by decide

theorem witness_LoadPushesTheAddressedCell_invalid :
    (stateOf []).depth = 0 ∧ ∀ n ∈ [4294967295, 16384],
      let a := BitVec.ofNat 32 n
      (stateOf [a]).stack = [] ++ [a] ∧ (a.toInt < 0 ∨ 16384 ≤ a.toInt) := by decide

theorem witness_StoreWritesTheAddressedCellOnly_valid :
    ∀ n ∈ [0, 16383],
      let a := BitVec.ofNat 32 n
      (stateOf [9#32, a]).Inv ∧ (stateOf [9#32, a]).stack = [] ++ [9#32, a] ∧
      0 ≤ a.toInt ∧ a.toInt < 16384 := by decide

theorem witness_StoreWritesTheAddressedCellOnly_invalid :
    (stateOf [16384#32]).depth < 2 ∧ ∀ n ∈ [4294967295, 16384],
      let a := BitVec.ofNat 32 n
      (stateOf [9#32, a]).stack = [] ++ [9#32, a] ∧
      (a.toInt < 0 ∨ 16384 ≤ a.toInt) := by decide

theorem witness_LoadAfterStoreGivesTheStoredWord :
    ∀ n ∈ [0, 16383],
      let c := BitVec.ofNat 32 n
      (stateOf [9#32, 16383#32]).Inv ∧
      (stateOf [9#32, 16383#32]).stack = [] ++ [9#32, 16383#32] ∧
      0 ≤ (16383#32).toInt ∧ (16383#32).toInt < 16384 ∧ 0 ≤ c.toInt ∧ c.toInt < 16384 := by decide

theorem witness_InitMemoryCopiesThenZeroFills :
    [10#32, 20#32][1]? = some 20#32 ∧ [10#32, 20#32].length ≤ 2 ∧ 2 < 16384 := by decide

theorem witness_MemoryIsItsCellsAndOnlyStoreChangesIt_step :
    ∃ t, step (stateOf [3#32] [0x3C#8]) = .next t ∧ fetch (stateOf [3#32] [0x3C#8]) ≠ .byte 0x3E#8 :=
  ⟨_, rfl, by decide⟩

theorem witness_MemoryIsItsCellsAndOnlyStoreChangesIt_cells :
    Memory.wf [(0, 1#32), (16383, 9#32)] = true ∧
      ∀ a, a < 16384 →
        Memory.read [(0, 1#32), (16383, 9#32)] a = Memory.read [(0, 1#32), (16383, 9#32)] a :=
  ⟨by decide, fun _ _ => rfl⟩

theorem witness_PickCopiesTheElementAtTheDepth_top :
    (bounded 3 (stateOf [7#32, 8#32, 0#32])).Inv ∧
      (bounded 3 (stateOf [7#32, 8#32, 0#32])).stack = [7#32] ++ [8#32] ++ [] ++ [0#32] ∧
      (0#32).toInt = ([] : List Word).length := by decide

theorem witness_PickCopiesTheElementAtTheDepth_bottom :
    (stateOf [7#32, 8#32, 1#32]).Inv ∧
      (stateOf [7#32, 8#32, 1#32]).stack = [] ++ [7#32] ++ [8#32] ++ [1#32] ∧
      (1#32).toInt = [8#32].length := by decide

theorem witness_PickCopiesTheElementAtTheDepth_invalid :
    (stateOf []).depth = 0 ∧ ∀ n ∈ [2, 4294967295],
      let a := BitVec.ofNat 32 n
      (stateOf [7#32, 8#32, a]).stack = [7#32, 8#32] ++ [a] ∧
      (a.toInt < 0 ∨ ([7#32, 8#32].length : Int) ≤ a.toInt) := by decide

theorem witness_RollMovesTheElementAtTheDepthToTheTop_top :
    (bounded 3 (stateOf [7#32, 8#32, 0#32])).Inv ∧
      (bounded 3 (stateOf [7#32, 8#32, 0#32])).stack = [7#32] ++ [8#32] ++ [] ++ [0#32] ∧
      (0#32).toInt = ([] : List Word).length := by decide

theorem witness_RollMovesTheElementAtTheDepthToTheTop_bottom :
    (stateOf [7#32, 8#32, 1#32]).Inv ∧
      (stateOf [7#32, 8#32, 1#32]).stack = [] ++ [7#32] ++ [8#32] ++ [1#32] ∧
      (1#32).toInt = [8#32].length := by decide

theorem witness_RollMovesTheElementAtTheDepthToTheTop_invalid :
    (stateOf []).depth = 0 ∧ ∀ n ∈ [2, 4294967295],
      let a := BitVec.ofNat 32 n
      (stateOf [7#32, 8#32, a]).stack = [7#32, 8#32] ++ [a] ∧
      (a.toInt < 0 ∨ ([7#32, 8#32].length : Int) ≤ a.toInt) := by decide

theorem witness_PushWritesTheCellAtDepth :
    (bounded 1 (stateOf [4#32])).stackCapacity = .cells (bounded 1 (stateOf [4#32])).depth ∧
      (bounded 2 (stateOf [4#32])).stackCapacity ≠ .cells (bounded 2 (stateOf [4#32])).depth := by decide

theorem witness_PopReturnsTheCellBelowDepth :
    (stateOf []).depth = 0 ∧ (stateOf [7#32]).depth ≠ 0 := by decide

theorem witness_PeekReadsTheCellAtTheDepth :
    ∀ n ∈ [0, 1],
      let k := BitVec.ofNat 32 n
      0 ≤ k.toInt ∧ k.toInt < (stateOf [7#32, 8#32]).depth := by decide

theorem witness_PeekReadsTheCellAtTheDepth_invalid :
    ∀ n ∈ [4294967295, 2],
      let k := BitVec.ofNat 32 n
      k.toInt < 0 ∨ ((stateOf [7#32, 8#32]).depth : Int) ≤ k.toInt := by decide

theorem witness_RotateToTopShiftsTheCellsAbove :
    ∀ n ∈ [0, 1],
      let k := BitVec.ofNat 32 n
      0 ≤ k.toInt ∧ k.toInt < (stateOf [7#32, 8#32]).depth := by decide

theorem witness_RotateToTopShiftsTheCellsAbove_invalid :
    ∀ n ∈ [4294967295, 2],
      let k := BitVec.ofNat 32 n
      k.toInt < 0 ∨ ((stateOf [7#32, 8#32]).depth : Int) ≤ k.toInt := by decide

theorem witness_DepthChangesByPopsAndPushes : ∃ t, (stateOf [7#32, 8#32]).status = .running ∧
    exec .mul (stateOf [7#32, 8#32]) = .next t ∧ t.status = .running :=
  ⟨_, by decide, rfl, by decide⟩

theorem witness_StepFollowsTheSequencer_ends :
    { stateOf [] with status := .halted .ok }.status = .halted .ok ∧
      (stateOf [] [0x20#8] 1#32).pc.toInt = (stateOf [] [0x20#8] 1#32).programLength ∧
      ((stateOf [] [0x20#8] 2#32).programLength : Int) < (stateOf [] [0x20#8] 2#32).pc.toInt ∧
      (stateOf [] [0x20#8] 4294967295#32).pc.toInt < 0 := by
  decide

/-- For StepFollowsTheSequencer and StepRunsTheDecodedInstruction. -/
theorem witness_StepFollowsTheSequencer_runs : ∀ n ∈ [0, 1],
      let pc := BitVec.ofNat 32 n
      (stateOf [] [0x20#8, 0x20#8] pc).status = .running ∧ (stateOf [] [0x20#8, 0x20#8] pc).pcInRange ∧
      (stateOf [] [0x20#8, 0x20#8] pc).prog[pc.toNat]? = some 0x20#8 ∧ decode 0x20#8 = .instr .nop := by
  decide

theorem witness_DefaultPcAdvanceIsByOne : ∃ t u v,
    (stateOf [1#32] [0x20#8]).Inv ∧ (stateOf [1#32] [0x20#8]).status = .running ∧
      (stateOf [1#32] [0x20#8]).pcInRange ∧
      exec .add (stateOf [1#32] [0x20#8]) = .next t ∧ t.status ≠ .running ∧
      exec .drop (stateOf [1#32] [0x20#8]) = .next u ∧ u.status = .running ∧
      exec .jmp (stateOf [1#32] [0x20#8]) = .next v ∧ v.status = .running :=
  ⟨_, _, _, by decide, by decide, by decide, rfl, by decide, rfl, by decide, rfl, by decide⟩

theorem witness_RunningStatesAlwaysStep : (stateOf []).status = .running := by decide

/-- For HaltedStatusIsFinal and HaltedStateStopsByName. -/
theorem witness_HaltedStatusIsFinal :
    Host.Core.run core 0 { stateOf [] with status := .halted .emptyStack } =
      .next { stateOf [] with status := .halted .emptyStack } := rfl

theorem witness_ProgramAndCapacityNeverChange : ∃ t, step (stateOf [] [0x35#8]) = .next t := ⟨_, rfl⟩

/-- A step that ends the run with each of the eight results, from a state of the invariant. -/
theorem witness_StateLeftByARunResult :
    ∀ c ∈ [(stateOf [1#32] [], RunResult.ok), (stateOf [1#32] [0x21#8], .ok),
      (stateOf [1#32] [] 1#32, .programCounterOutOfBounds), (stateOf [1#32] [0x7A#8], .unknownInstruction),
      (stateOf [1#32] [0x2B#8], .emptyStack), (stateOf [1#32, 1#32] [0x5E#8], .invalidStackIndex),
      (stateOf [1#32, 0#32] [0x2F#8], .divisionByZero), (stateOf [16384#32] [0x3C#8], .invalidMemoryAddress),
      (stateOf [1#32, 16384#32] [0x3E#8], .invalidMemoryAddress),
      (bounded 1 (stateOf [1#32] [0x30#8]), .allocationFailure)],
      c.1.Inv ∧ c.1.status = .running ∧ c.1.explained = true ∧
        (after (step c.1)).map (fun t => t.status) = some (.halted c.2) := by
  decide

theorem witness_StartOfARunMeetsTheInvariant : validStart [0x20#8] (.cells 1) := by decide

/-- For StepKeepsTheInvariant and StepKeepsTheResultExplained. -/
theorem witness_StepKeepsTheInvariant : ∃ t, (bounded 1 (stateOf [] [0x35#8])).Inv ∧
    (bounded 1 (stateOf [] [0x35#8])).explained = true ∧ step (bounded 1 (stateOf [] [0x35#8])) = .next t :=
  ⟨_, by decide, by decide, rfl⟩

theorem witness_BlockAtItsPortsDoesTheStep :
    ∃ o st, (bounded 1 (stateOf [16383#32] [0x3C#8])).Inv ∧
      (bounded 1 (stateOf [16383#32] [0x3C#8])).status = .running ∧
      (bounded 1 (stateOf [16383#32] [0x3C#8])).pcInRange ∧
      (bounded 1 (stateOf [16383#32] [0x3C#8])).prog[0]? = some 0x3C#8 ∧
      block (.cells 1) (.issue 0x3C#8 0#32 0#32) [16383#32] = (some o, st) ∧
      busDrives [] o 0#32 = true :=
  ⟨_, _, by decide, by decide, by decide, by decide, rfl, by decide⟩

theorem witness_BlockOutputsFitTheirPorts_load :
    ∃ o st, block .unbounded (.issue 0x3C#8 0#32 0#32) [3#32] = (some o, st) ∧ o.memRe = true :=
  ⟨_, _, rfl, by decide⟩

theorem witness_BlockOutputsFitTheirPorts_store :
    ∃ o st, block .unbounded (.issue 0x3E#8 0#32 0#32) [7#32, 3#32] = (some o, st) ∧ o.memWe = true :=
  ⟨_, _, rfl, by decide⟩

theorem witness_BlockOutputsFitTheirPorts_output :
    ∃ o st, block .unbounded (.issue 0x70#8 0#32 0#32) [2147483648#32] = (some o, st) ∧
      o.outBytes ≠ [] ∧ o.outBytes.length = 11 :=
  ⟨_, _, rfl, by decide, by decide⟩

theorem witness_BlockOutputsFitTheirPorts_done :
    ∃ o st, block .unbounded (.issue 0x2F#8 0#32 0#32) [5#32, 0#32] = (some o, st) ∧ o.done = true :=
  ⟨_, _, rfl, by decide⟩

/-- R180 with a stack left by an earlier run: `start`, then the issue of `prog[0]`, then no more. -/
theorem test_run_at_ports_starts_then_issues :
    (PortRun.due [0x21#8] [5#32] (.cells 2) [1#32, 2#32]).inputs [0#32, 0#32, 0#32] =
      [.start, .issue 0x21#8 0#32 0#32, .idle] := by decide

theorem witness_SequencerAssertsStartBeforeTheFirstIssue :
    ([0x21#8] : List Byte)[0]? = some 0x21#8 := by decide

theorem witness_RunAtItsPortsFollowsTheMachine_load :
    (bounded 1 (stateOf [16383#32] [0x3C#8])).Inv ∧
      (bounded 1 (stateOf [16383#32] [0x3C#8])).status = .running ∧
      (PortRun.started (bounded 1 (stateOf [16383#32] [0x3C#8]))).busAnswers 0#32 = true := by decide

theorem witness_RunAtItsPortsFollowsTheMachine_end :
    (stateOf [] []).Inv ∧ (stateOf [] []).status = .running ∧
      (PortRun.started (stateOf [] [])).busAnswers 0#32 = true ∧
      { stateOf [] [] with status := .halted .ok }.status = .halted .ok := by decide

end Sys2Proof.Tests
end

section
/-!
PROOFS. The invariant of the machine at the start of a run and along every step. Everything here
about all instructions is a case analysis of `Effect`, one component of the state at a time.
-/

namespace Sys2Proof.Machine

/-! ## What an instruction can make of each component of the invariant -/

/-- R8, R17: no instruction touches the parameters of the run. -/
theorem Effect.prog_capacity {i : Instr} {s t : State} (h : Effect i s t) :
    t.prog = s.prog ∧ t.stackCapacity = s.stackCapacity := by
  cases h <;> exact ⟨rfl, rfl⟩

/-- R40: only a store at a valid address writes memory, and it writes one cell. -/
theorem Effect.mem_eq_or_store {i : Instr} {s t : State} (h : Effect i s t) :
    t.mem = s.mem ∨ i = .store ∧ ∃ a b, validAddress a = true ∧
      t.mem = s.mem.write (cellPort a).toNat b := by
  cases h with
  | store hs ha => exact .inr ⟨rfl, _, _, ha, rfl⟩
  | _ => exact .inl rfl

/-- R12, R24: only a digit push can deepen the stack, by one and where there is room; every other
instruction pops at least as much as it pushes. -/
theorem Effect.depth_le_or_pushd {i : Instr} {s t : State} (h : Effect i s t) :
    t.depth ≤ s.depth ∨
      (∃ d, i = .pushd d) ∧ s.stackCapacity.isFull s.depth = false ∧ t.depth = s.depth + 1 := by
  cases h with
  | pushes hroom => exact .inr ⟨⟨_, rfl⟩, hroom, by simp [State.depth]⟩
  | advances | halts | full => exact .inl le_rfl
  | short => exact .inl (Nat.zero_le _)
  | roll hs ha => left; simp [State.depth, hs, rotated_length ha]
  | noRoom hs | binary hs | divByZero hs | prtd hs | prtc hs | jmp hs | jzTaken hs
  | jzFallsThrough hs | load hs | loadInvalid hs | store hs | storeInvalid hs | pick hs
  | pickInvalid hs | rollInvalid hs | drop hs => left; simp [State.depth, hs]

/-! ## The invariant along a step -/

theorem Effect.mem_wf {i : Instr} {s t : State} (h : Effect i s t) (hwf : s.mem.wf = true) :
    t.mem.wf = true := by
  rcases h.mem_eq_or_store with hmem | ⟨-, a, b, -, hmem⟩
  · rw [hmem]; exact hwf
  · rw [hmem]; exact Memory.write_wf hwf (cellPort a).isLt

theorem Effect.admits_depth {i : Instr} {s t : State} (h : Effect i s t)
    (hadmits : s.stackCapacity.admits s.depth = true) :
    s.stackCapacity.admits t.depth = true := by
  rcases h.depth_le_or_pushd with hle | ⟨-, hroom, hdepth⟩
  · exact admits_mono hadmits hle
  · rw [hdepth]; exact admits_succ hadmits hroom

theorem Effect.inv {i : Instr} {s t : State} (h : Effect i s t) (hs : s.Inv) : t.Inv := by
  obtain ⟨hwf, hadmits, hpositive, hlength⟩ := hs
  obtain ⟨hprog, hcapacity⟩ := h.prog_capacity
  refine ⟨h.mem_wf hwf, ?_, ?_, ?_⟩
  · rw [hcapacity]; exact h.admits_depth hadmits
  · rw [hcapacity]; exact hpositive
  · rw [State.programLength, hprog]; exact hlength

/-- The status is no part of the invariant: ending a run keeps it. -/
theorem State.Inv.withStatus {s : State} (hs : s.Inv) (x : Status) : (s.withStatus x).Inv := hs

theorem step_inv {s t : State} (hs : s.Inv) (h : step s = .next t) : t.Inv := by
  obtain ⟨-, ⟨r, -, rfl⟩ | ⟨b, i, -, -, heffect⟩ | ⟨b, -, -, rfl⟩⟩ := step_next h
  · exact hs.withStatus _
  · exact heffect.inv hs
  · exact hs.withStatus _

/-! ## The invariant at the start of a run -/

/-- The empty stack is within every capacity. -/
theorem admits_zero (c : StackCapacity) : c.admits 0 = true := by
  cases c with
  | unbounded => rfl
  | cells n => simp [StackCapacity.admits]

theorem startRun_inv {program : List Byte} {capacity : StackCapacity}
    (h : validStart program capacity) (values : List Word) :
    (startRun program values capacity).Inv := by
  obtain ⟨hlength, hpositive⟩ := h
  exact ⟨initMemory_wf values, admits_zero capacity, hpositive, hlength⟩

/-- A run that has not ended has no result to explain. -/
theorem explained_of_running {s : State} (h : s.status = .running) : s.explained = true := by
  simp [State.explained, h]

end Sys2Proof.Machine

namespace Sys2Proof.Proofs

open Sys2Proof.Machine

/-- Settles O47: each component of the invariant is kept by every case of `Effect`, and a step that
executes no instruction changes the status alone. -/
theorem stepKeepsTheInvariant : Obligations.StepKeepsTheInvariant :=
  fun _ _ hs h => step_inv hs h

/-- Settles O46: a start has an empty stack, a canonical memory and the parameters it was given, and
it is running. -/
theorem startOfARunMeetsTheInvariant : Obligations.StartOfARunMeetsTheInvariant :=
  fun _ values _ h => ⟨startRun_inv h values, explained_of_running rfl⟩

end Sys2Proof.Proofs
end

section
/-!
PROOFS. The stack primitives on the absolute storage `S[i]` (10_state.md R24-R27).
-/

namespace Sys2Proof.Machine

theorem validIndex_eq_false {k : Word} {d : Nat} (h : k.toInt < 0 ∨ (d : Int) ≤ k.toInt) :
    validIndex k d = false := by
  rw [Bool.eq_false_iff, ne_eq, validIndex_iff]; omega

/-- The word read at a valid depth is in the cell `depth - 1 - k`. -/
theorem getElem?_elementAt {k : Word} {l : List Word} (h : validIndex k l.length = true) :
    l[l.length - 1 - k.toInt.toNat]? = some (elementAt k l) := by
  obtain ⟨p, v, q, rfl, hk⟩ := append_of_validIndex h
  have hpos : (p ++ v :: q).length - 1 - k.toInt.toNat = p.length := by simp; omega
  rw [elementAt_of_append hk, hpos]
  simp

/-- R27: the cells below the removed one stay. -/
theorem getElem?_rotated_of_lt {k : Word} {l : List Word} {j : Nat}
    (h : validIndex k l.length = true) (hj : j < l.length - 1 - k.toInt.toNat) :
    (rotated k l)[j]? = l[j]? := by
  obtain ⟨p, v, q, rfl, hk⟩ := append_of_validIndex h
  rw [rotated_of_append hk]
  grind

/-- R27: the cells above the removed one move down by one. -/
theorem getElem?_rotated_of_ge {k : Word} {l : List Word} {j : Nat}
    (h : validIndex k l.length = true) (hj : l.length - 1 - k.toInt.toNat ≤ j)
    (hj' : j < l.length - 1) :
    (rotated k l)[j]? = l[j + 1]? := by
  obtain ⟨p, v, q, rfl, hk⟩ := append_of_validIndex h
  rw [rotated_of_append hk]
  grind

/-- R27: the removed word is the new top. -/
theorem getElem?_rotated_top {k : Word} {l : List Word} (h : validIndex k l.length = true) :
    (rotated k l)[l.length - 1]? = some (elementAt k l) := by
  obtain ⟨p, v, q, rfl, hk⟩ := append_of_validIndex h
  rw [rotated_of_append hk, elementAt_of_append hk]
  grind

/-- R27: a removal and an append keep the multiset of words. -/
theorem rotated_perm {k : Word} {l : List Word} (h : validIndex k l.length = true) :
    (rotated k l).Perm l := by
  obtain ⟨p, v, q, rfl, hk⟩ := append_of_validIndex h
  rw [rotated_of_append hk, List.append_assoc]
  exact (List.perm_append_singleton v q).append_left p

end Sys2Proof.Machine

namespace Sys2Proof.Proofs

open Sys2Proof.Machine

/-- Settles O29. -/
theorem pushWritesTheCellAtDepth : Obligations.PushWritesTheCellAtDepth := by
  intro s v rest
  refine ⟨fun hfull => ?_, fun hroom => ?_⟩
  · rw [push_of_full ((isFull_iff _ _).mpr hfull), raise_eq]
  · have hroom : s.stackCapacity.isFull s.depth = false := by
      rwa [Bool.eq_false_iff, ne_eq, isFull_iff]
    exact ⟨s.stack ++ [v], by simp [State.depth], by simp [State.depth],
      fun i hi => List.getElem?_append_left hi, push_of_room hroom v rest⟩

/-- Settles O30: a stack that is not empty is its top on the cells below it. -/
theorem popReturnsTheCellBelowDepth : Obligations.PopReturnsTheCellBelowDepth := by
  intro s rest
  refine ⟨fun hempty => ?_, fun hne => ?_⟩
  · rw [pop_of_empty (List.length_eq_zero_iff.mp hempty), raise_eq]
  · obtain hs | ⟨l, v, hs⟩ := List.eq_nil_or_concat' s.stack
    · exact absurd (congrArg List.length hs) hne
    · refine ⟨v, l, ?_, ?_, fun i hi => ?_, pop_of_append hs rest⟩
      · simp [State.depth, hs]
      · simp [State.depth, hs]
      · rw [hs, List.getElem?_append_left (by simpa [State.depth, hs] using hi)]

/-- Settles O31. -/
theorem peekReadsTheCellAtTheDepth : Obligations.PeekReadsTheCellAtTheDepth := by
  intro s k rest
  refine ⟨fun hk => ?_, fun h0 hlt => ?_⟩
  · rw [peek_of_invalid (validIndex_eq_false hk), raise_eq]
  · have hk : validIndex k s.depth = true := (validIndex_iff k s.depth).mpr ⟨h0, hlt⟩
    exact ⟨elementAt k s.stack, getElem?_elementAt hk, peek_of_valid hk rest⟩

/-- Settles O32: the valid case is the four facts about `rotated`. -/
theorem rotateToTopShiftsTheCellsAbove : Obligations.RotateToTopShiftsTheCellsAbove := by
  intro s k rest
  refine ⟨fun hk => ?_, fun h0 hlt => ?_⟩
  · rw [rotateToTop_of_invalid (validIndex_eq_false hk), raise_eq]
  · have hk : validIndex k s.depth = true := (validIndex_iff k s.depth).mpr ⟨h0, hlt⟩
    exact ⟨rotated k s.stack, fun _ => getElem?_rotated_of_lt hk,
      fun _ => getElem?_rotated_of_ge hk,
      (getElem?_rotated_top hk).trans (getElem?_elementAt hk).symm, rotated_length hk,
      rotated_perm hk, rotateToTop_of_valid hk rest⟩

end Sys2Proof.Proofs
end

section
/-!
PROOFS. The step and what it can make of the output, the depth, the pc and the status. Everything
here about all instructions is a case analysis of `Effect`.
-/

namespace Sys2Proof.Machine

open Sys2Proof.Claims

/-! ## The step, one equation per case of the sequencer (R30) -/

theorem step_of_halted {s : State} {r : RunResult} (hs : s.status = .halted r) :
    step s = .fault (.noStep r) := by
  simp [step, hs]

theorem step_of_ended {s : State} {r : RunResult} (hs : s.status = .running)
    (hf : fetch s = .ended r) : step s = .next (s.withStatus (.halted r)) := by
  simp [step, hs, hf, raise]

theorem step_of_instr {s : State} {b : Byte} {i : Instr} (hs : s.status = .running)
    (hf : fetch s = .byte b) (hd : decode b = .instr i) : step s = exec i s := by
  simp [step, hs, hf, hd]

theorem step_of_illegal {s : State} {b : Byte} (hs : s.status = .running) (hf : fetch s = .byte b)
    (hd : decode b = .illegal) : step s = .next (s.withStatus (.halted .unknownInstruction)) := by
  simp [step, hs, hf, hd, execIllegal, raise]

/-- Every instruction answers a next state: each is made of operations that go on to the rest or
raise. -/
theorem exec_completes (i : Instr) (s : State) : ∃ t, exec i s = .next t := by
  have push_advance : ∀ v s, ∃ t, push v s advance = .next t :=
    fun _ _ => push_completes advance_completes
  have binary_completes : ∀ f, ∃ t, binary f s = .next t :=
    fun f => popLeftRight_completes fun a b s => push_advance (f a b) s
  cases i with
  | nop | rsvc | rsvd => exact advance_completes s
  | halt => exact raise_completes .ok s
  | pushd d => exact push_advance (digitValue d) s
  | add | sub | mul | cmp => exact binary_completes _
  | div =>
    refine popLeftRight_completes fun a b s => ?_
    by_cases hb : isZero b = true
    · rw [if_pos hb]; exact raise_completes _ s
    · rw [if_neg hb]; exact push_advance _ s
  | prtd | prtc | drop => exact pop_completes fun _ _ => advance_completes _
  | jmp => exact pop_completes fun _ _ => ⟨_, rfl⟩
  | jz =>
    refine popTopSecond_completes fun a b s => ?_
    by_cases hb : isZero b = true
    · rw [if_pos hb]; exact ⟨_, rfl⟩
    · rw [if_neg hb]; exact advance_completes s
  | load => exact pop_completes fun _ s => memRead_completes fun v => push_advance v s
  | store => exact popTopSecond_completes fun _ _ _ => memWrite_completes advance_completes
  | pick => exact pop_completes fun _ s => peek_completes fun v => push_advance v s
  | roll => exact pop_completes fun _ _ => rotateToTop_completes advance_completes

/-- A running state always steps. -/
theorem step_completes {s : State} (hs : s.status = .running) : ∃ t, step s = .next t := by
  cases hf : fetch s with
  | ended r => exact ⟨_, step_of_ended hs hf⟩
  | byte b =>
    cases hd : decode b with
    | illegal => exact ⟨_, step_of_illegal hs hf hd⟩
    | instr i => rw [step_of_instr hs hf hd]; exact exec_completes i s

/-- No step changes the parameters of the run. -/
theorem step_prog_capacity {s t : State} (h : step s = .next t) :
    t.prog = s.prog ∧ t.stackCapacity = s.stackCapacity := by
  obtain ⟨-, ⟨r, -, rfl⟩ | ⟨b, i, -, -, heffect⟩ | ⟨b, -, -, rfl⟩⟩ := step_next h
  · exact ⟨rfl, rfl⟩
  · exact heffect.prog_capacity
  · exact ⟨rfl, rfl⟩

/-! ## What an instruction can make of the other components -/

/-- A byte decodes only to the instruction it encodes (R62). -/
theorem encode_of_decode {b : Byte} {i : Instr} (h : decode b = .instr i) : encode i = b := by
  have table : ∀ b : Byte, ∀ i ∈ (decode b).instr?, encode i = b := by decide
  exact table b i (by simp [h, Tag.instr?])

/-- R20: only `p` and `P` write output, and they append. -/
theorem Effect.out_eq_or_prints {i : Instr} {s t : State} (h : Effect i s t) :
    t.out = s.out ∨ (i = .prtd ∨ i = .prtc) ∧ ∃ bytes, t.out = s.out ++ bytes := by
  cases h with
  | prtd => exact .inr ⟨.inl rfl, _, rfl⟩
  | prtc => exact .inr ⟨.inr rfl, _, rfl⟩
  | _ => exact .inl rfl

/-- The output after a step extends the output before it, and is the same unless a print was
fetched. -/
theorem step_out {s t : State} (h : step s = .next t) :
    t.out = s.out ∨
      (fetch s = .byte 0x70#8 ∨ fetch s = .byte 0x50#8) ∧ ∃ bytes, t.out = s.out ++ bytes := by
  obtain ⟨-, ⟨r, -, rfl⟩ | ⟨b, i, hf, hd, heffect⟩ | ⟨b, -, -, rfl⟩⟩ := step_next h
  · exact .inl rfl
  · rcases heffect.out_eq_or_prints with hout | ⟨hi, happends⟩
    · exact .inl hout
    · refine .inr ⟨?_, happends⟩
      rw [hf, ← encode_of_decode hd]
      exact hi.imp (fun hi => by rw [hi]; rfl) fun hi => by rw [hi]; rfl
  · exact .inl rfl

/-- The binary operations are the instructions of R70 with two pops and one push. -/
theorem pops_pushes_of_binaryResult {i : Instr} {a b r : Word} (h : binaryResult i a b = some r) :
    tagPops (.instr i) = 2 ∧ pushes i = 1 := by
  cases i with
  | add | sub | mul | div | cmp => exact ⟨rfl, rfl⟩
  | _ => cases h

/-- R12, R70: an instruction that goes on changes the depth by its pops and pushes. -/
theorem Effect.depth_of_running {i : Instr} {s t : State} (h : Effect i s t)
    (ht : t.status = .running) : t.depth + tagPops (.instr i) = s.depth + Claims.pushes i := by
  cases h with
  | advances hi => rcases hi with rfl | rfl | rfl <;> rfl
  | pushes => simp [State.depth, tagPops, Claims.pushes]
  | binary hs hr =>
    obtain ⟨hpops, hpushes⟩ := pops_pushes_of_binaryResult hr
    simp [State.depth, hs, hpops, hpushes]
  | roll hs ha => simp [State.depth, hs, rotated_length ha, tagPops, Claims.pushes]
  | prtd hs | prtc hs | jmp hs | jzTaken hs | jzFallsThrough hs | load hs | store hs | pick hs
  | drop hs => simp [State.depth, hs, tagPops, Claims.pushes]
  | halts | full | short | noRoom | divByZero | loadInvalid | storeInvalid | pickInvalid
  | rollInvalid => cases ht

/-- R31, R153: an instruction ends the run and leaves at most a shorter stack, or goes on with the
default pc advance, or jumps. -/
theorem Effect.ends_or_advances_or_jumps {i : Instr} {s t : State} (h : Effect i s t) :
    (∃ l r, t = (s.withStack l).withStatus (.halted r)) ∨
    (t.status = s.status ∧ t.pc = s.pc + 1#32) ∨
    (t.status = s.status ∧ (i = .jmp ∨ i = .jz) ∧
      ∃ a, s.stack.getLast? = some a ∧ t.pc = w32 (s.pc.toInt + a.toInt + 1)) := by
  cases h with
  | halts | full => exact .inl ⟨s.stack, _, rfl⟩
  | short | noRoom | divByZero | loadInvalid | storeInvalid | pickInvalid | rollInvalid =>
    exact .inl ⟨_, _, rfl⟩
  | jmp hs => exact .inr (.inr ⟨rfl, .inl rfl, _, by simp [hs], rfl⟩)
  | jzTaken hs => exact .inr (.inr ⟨rfl, .inr rfl, _, by simp [hs], rfl⟩)
  | advances | pushes | binary | prtd | prtc | jzFallsThrough | load | store | pick | roll | drop =>
    exact .inr (.inl ⟨rfl, rfl⟩)

/-! ## The pc -/

/-- R7: the increment of a `pc` in range does not wrap. -/
theorem toInt_pc_add_one {s : State} (hlength : s.programLength ≤ Config.maxProgramLength)
    (hpc : s.pcInRange) : (s.pc + 1#32).toInt = s.pc.toInt + 1 := by
  obtain ⟨h0, hlt⟩ := hpc
  rw [Config.maxProgramLength] at hlength
  rw [← w32_toInt_add_one, w32_toInt]
  exact Int.bmod_eq_of_le (by omega) (by omega)

theorem wraps_w32 (v : Int) : Wraps v (w32 v) := by
  refine ⟨Int.bdiv v 4294967296, ?_⟩
  rw [w32_toInt]
  exact (Int.bmod_add_bdiv v 4294967296).symm

end Sys2Proof.Machine

namespace Sys2Proof.Proofs

open Sys2Proof.Machine

/-- Settles O16. -/
theorem outputIsAppendOnly : Obligations.OutputIsAppendOnly := by
  refine ⟨fun _ _ _ => rfl, fun s t h => ?_⟩
  rcases step_out h with hout | ⟨hprints, happends⟩
  · exact ⟨⟨[], by rw [hout, List.append_nil]⟩, fun _ _ => hout⟩
  · exact ⟨happends, fun hp hP => (hprints.elim hp hP).elim⟩

/-- Settles O33. -/
theorem depthChangesByPopsAndPushes : Obligations.DepthChangesByPopsAndPushes :=
  fun _ _ _ _ h ht => (exec_effect h).depth_of_running ht

/-- Settles O34: one equation of the step per case. -/
theorem stepFollowsTheSequencer : Obligations.StepFollowsTheSequencer := by
  refine ⟨fun s r hs t h => ?_, fun s hs hpc => step_of_ended hs (fetch_of_end hpc),
    fun s hs hpc => step_of_ended hs (fetch_of_outOfBounds hpc), fun s b hs hpc hb => ?_⟩
  · rw [step_of_halted hs] at h
    cases h
  · have hf := fetch_of_inRange hpc hb
    cases hd : decode b with
    | instr i => exact step_of_instr hs hf hd
    | illegal => exact step_of_illegal hs hf hd

/-- Settles O35. -/
theorem stepRunsTheDecodedInstruction : Obligations.StepRunsTheDecodedInstruction :=
  fun _ _ _ hs hpc hb hd => step_of_instr hs (fetch_of_inRange hpc hb) hd

/-- Settles O36: the increment does not wrap because the program is no longer than 2^31 - 1. -/
theorem defaultPcAdvanceIsByOne : Obligations.DefaultPcAdvanceIsByOne := by
  intro i s t hinv hs hpc h
  obtain ⟨-, -, -, hlength⟩ := hinv
  rcases (exec_effect h).ends_or_advances_or_jumps with
    ⟨l, r, rfl⟩ | ⟨hstatus, hadvance⟩ | ⟨hstatus, hi, a, ha, hjump⟩
  · refine ⟨fun _ => rfl, fun hrunning => ?_, fun hrunning => ?_⟩ <;> cases hrunning
  · have hone : t.pc.toInt = s.pc.toInt + 1 := by rw [hadvance, toInt_pc_add_one hlength hpc]
    exact ⟨fun hended => absurd (hstatus.trans hs) hended, fun _ _ _ => hone, fun _ _ => .inl hone⟩
  · refine ⟨fun hended => absurd (hstatus.trans hs) hended,
      fun _ hjmp hjz => (hi.elim hjmp hjz).elim, fun _ _ => .inr ⟨a, ha, ?_⟩⟩
    rw [hjump]
    exact wraps_w32 _

/-- Settles O37. -/
theorem runningStatesAlwaysStep : Obligations.RunningStatesAlwaysStep :=
  ⟨exec_completes, fun _ => step_completes⟩

/-- Settles O38: the first of any steps from a halted state stops with the fault of `step`. -/
theorem haltedStatusIsFinal : Obligations.HaltedStatusIsFinal := by
  intro n s t r hs h
  cases n with
  | zero => exact ⟨rfl, (Host.Outcome.next.inj h).symm⟩
  | succ n =>
    have hstep : core.step s = .fault (.noStep r) := step_of_halted hs
    simp [Host.Core.run, hstep] at h

/-- Settles O40. -/
theorem programAndCapacityNeverChange : Obligations.ProgramAndCapacityNeverChange :=
  fun _ _ => step_prog_capacity

end Sys2Proof.Proofs
end

section
/-!
PROOFS. The status register (10_state.md R19) and the start of a run (R35-R38).
-/

namespace Sys2Proof.Machine

/-- The run result with a given code (R150). -/
def resultOfCode (code : BitVec 3) : RunResult :=
  [RunResult.ok, .programCounterOutOfBounds, .unknownInstruction, .emptyStack, .invalidStackIndex,
    .divisionByZero, .invalidMemoryAddress, .allocationFailure].getD code.toNat .ok

theorem resultOfCode_resultCode (r : RunResult) : resultOfCode (resultCode r) = r := by
  cases r <;> rfl

/-- R150: different results have different codes. -/
theorem resultCode_injective : Function.Injective resultCode :=
  Function.LeftInverse.injective resultOfCode_resultCode

theorem statusBits_halted_toNat (r : RunResult) :
    (statusBits (.halted r)).toNat = 8 + (resultCode r).toNat := by
  cases r <;> rfl

/-- R19: the four bits determine the status. -/
theorem statusBits_injective : Function.Injective statusBits := by
  intro x y h
  have hnat := congrArg BitVec.toNat h
  have hrunning : (statusBits .running).toNat = 0 := rfl
  cases x with
  | running =>
    cases y with
    | running => rfl
    | halted r => rw [hrunning, statusBits_halted_toNat] at hnat; omega
  | halted r =>
    rw [statusBits_halted_toNat] at hnat
    cases y with
    | running => omega
    | halted r' =>
      rw [statusBits_halted_toNat, Nat.add_left_cancel_iff] at hnat
      rw [resultCode_injective (BitVec.eq_of_toNat_eq hnat)]

end Sys2Proof.Machine

namespace Sys2Proof.Proofs

open Sys2Proof.Machine

/-- Settles O42. -/
theorem statusRegisterBits : Obligations.StatusRegisterBits :=
  ⟨rfl, statusBits_halted_toNat, rfl, fun _ _ => (statusBits_injective ·)⟩

/-- Settles O43: the fields of `startRun`. -/
theorem startOfARunHasTheStartValues : Obligations.StartOfARunHasTheStartValues :=
  fun _ _ _ => ⟨rfl, rfl, rfl, rfl, rfl, rfl, rfl⟩

end Sys2Proof.Proofs
end

section
/-!
PROOFS. The block at its ports (10_state.md R14, R15). What the block answers is said once for an
instruction that ends the run and once for one that goes on; that the dispatch table of R70 agrees
with the instruction rules is then a case analysis of `Effect`.
-/

namespace Sys2Proof.Machine

/-! ## The operands of the dispatch table -/

/-- The word the dispatch table calls `x`: the top of the block's stack. -/
def topWord (stack : List Word) : Word := stack.getLast?.getD 0#32

/-- The word the dispatch table calls `y`: the one under the top. -/
def secondWord (stack : List Word) : Word := stack.dropLast.getLast?.getD 0#32

@[simp] theorem topWord_append_singleton (l : List Word) (a : Word) : topWord (l ++ [a]) = a := by
  simp [topWord]

@[simp] theorem topWord_append_pair (l : List Word) (b a : Word) : topWord (l ++ [b, a]) = a := by
  simp [topWord]

@[simp] theorem secondWord_append_pair (l : List Word) (b a : Word) :
    secondWord (l ++ [b, a]) = b := by
  have hdrop : (l ++ [b, a]).dropLast = l ++ [b] := by
    rw [← List.singleton_append, ← List.append_assoc, List.dropLast_concat]
  simp [secondWord, hdrop]

/-! ## What the block answers to an issue -/

/-- The outputs of an instruction that goes on, by the columns of R70. -/
def goesOnOut (t : Tag) (pc : Word) (stack : List Word) : BlockOut where
  pcNext := tagPcNext t pc (topWord stack) (secondWord stack)
  mem := tagMem t (topWord stack) (secondWord stack)
  outBytes := tagOut t (topWord stack)
  result := none

theorem block_of_short {capacity : StackCapacity} {b : Byte} {pc w : Word} {stack : List Word}
    (h : stack.length < tagPops (decode b)) :
    block capacity (.issue b pc w) stack = (some (endedOut pc .emptyStack), []) := by
  simp [block, h]

/-- The stack the dispatch table calls `rest`. -/
theorem take_of_append {stack rest popped : List Word} {n : Nat} (hs : stack = rest ++ popped)
    (hpops : popped.length = n) : ¬stack.length < n ∧ stack.take (stack.length - n) = rest := by
  subst hs hpops
  simp

/-- A check of R70 fails after the pops: the instruction ends the run. -/
theorem block_of_check {capacity : StackCapacity} {b : Byte} {pc w : Word}
    {stack rest popped : List Word} {r : RunResult} (hs : stack = rest ++ popped)
    (hpops : popped.length = tagPops (decode b))
    (hcheck : tagCheck (decode b) capacity (topWord stack) rest = some r) :
    block capacity (.issue b pc w) stack = (some (endedOut pc r), rest) := by
  obtain ⟨hdeep, htake⟩ := take_of_append hs hpops
  rw [topWord] at hcheck
  simp [block, hdeep, htake, hcheck]

/-- No check fails: the instruction goes on. -/
theorem block_of_pass {capacity : StackCapacity} {b : Byte} {pc w : Word}
    {stack rest popped : List Word} (hs : stack = rest ++ popped)
    (hpops : popped.length = tagPops (decode b))
    (hcheck : tagCheck (decode b) capacity (topWord stack) rest = none) :
    block capacity (.issue b pc w) stack = (some (goesOnOut (decode b) pc stack),
      tagStack (decode b) (topWord stack) (secondWord stack) w rest) := by
  obtain ⟨hdeep, htake⟩ := take_of_append hs hpops
  rw [topWord] at hcheck
  simp [block, hdeep, htake, hcheck, goesOnOut, topWord, secondWord]

/-- A stack deep enough for the pops splits into the popped words and the rest. -/
theorem exists_popped {n : Nat} {stack : List Word} (h : n ≤ stack.length) :
    ∃ rest popped, stack = rest ++ popped ∧ popped.length = n :=
  ⟨stack.take (stack.length - n), stack.drop (stack.length - n), by simp, by simp; omega⟩

/-- Everything the block can answer to an issue; the outputs do not depend on `mem_rdata`. -/
theorem block_issue (capacity : StackCapacity) (b : Byte) (pc : Word) (stack : List Word) :
    ∃ o, (∀ w, ∃ st, block capacity (.issue b pc w) stack = (some o, st)) ∧
      ((∃ r, o = endedOut pc r) ∨ o = goesOnOut (decode b) pc stack) := by
  by_cases hshort : stack.length < tagPops (decode b)
  · exact ⟨_, fun w => ⟨_, block_of_short hshort⟩, .inl ⟨_, rfl⟩⟩
  · obtain ⟨rest, popped, hs, hpops⟩ := exists_popped (Nat.le_of_not_lt hshort)
    cases hcheck : tagCheck (decode b) capacity (topWord stack) rest with
    | some r => exact ⟨_, fun w => ⟨_, block_of_check hs hpops hcheck⟩, .inl ⟨_, rfl⟩⟩
    | none => exact ⟨_, fun w => ⟨_, block_of_pass hs hpops hcheck⟩, .inr rfl⟩

/-! ## The widths of the outputs -/

theorem decimalDigits_length_le (fuel n : Nat) : (decimalDigits fuel n).length ≤ fuel := by
  induction fuel generalizing n with
  | zero => simp [decimalDigits]
  | succ fuel ih =>
    rw [decimalDigits]
    split_ifs
    · simp
    · simpa using ih (n / 10)

/-- R100: a sign and ten digits at most. -/
theorem decimal_length_le (a : Word) : (decimal a).length ≤ 11 := by
  have hdigits := decimalDigits_length_le 10 a.toInt.natAbs
  rw [decimal]
  split_ifs
  · exact Nat.succ_le_succ hdigits
  · exact Nat.le_succ_of_le hdigits

theorem tagOut_length_le (t : Tag) (x : Word) : (tagOut t x).length ≤ 11 := by
  rcases t with i | _
  · cases i with
    | prtd => exact decimal_length_le x
    | prtc => simp [tagOut]
    | _ => exact Nat.zero_le _
  · exact Nat.zero_le _

theorem tagOut_eq_nil_or_prints (t : Tag) (x : Word) :
    tagOut t x = [] ∨ t = .instr .prtd ∨ t = .instr .prtc := by
  rcases t with i | _
  · cases i with
    | prtd => exact .inr (.inl rfl)
    | prtc => exact .inr (.inr rfl)
    | _ => exact .inl rfl
  · exact .inl rfl

/-- R70, column "memory": only the load reads and only the store writes. -/
theorem tagMem_cases (t : Tag) (x y : Word) :
    tagMem t x y = .idle ∨ (t = .instr .load ∧ tagMem t x y = .read (cellPort x)) ∨
      (t = .instr .store ∧ tagMem t x y = .write (cellPort x) y) := by
  rcases t with i | _
  · cases i with
    | load => exact .inr (.inl ⟨rfl, rfl⟩)
    | store => exact .inr (.inr ⟨rfl, rfl⟩)
    | _ => exact .inl rfl
  · exact .inl rfl

theorem load_of_memRe {t : Tag} {pc : Word} {stack : List Word}
    (h : (goesOnOut t pc stack).memRe = true) : t = .instr .load := by
  rcases tagMem_cases t (topWord stack) (secondWord stack) with hm | ⟨ht, -⟩ | ⟨-, hm⟩
  · simp [goesOnOut, BlockOut.memRe, hm] at h
  · exact ht
  · simp [goesOnOut, BlockOut.memRe, hm] at h

theorem store_of_memWe {t : Tag} {pc : Word} {stack : List Word}
    (h : (goesOnOut t pc stack).memWe = true) : t = .instr .store := by
  rcases tagMem_cases t (topWord stack) (secondWord stack) with hm | ⟨-, hm⟩ | ⟨ht, -⟩
  · simp [goesOnOut, BlockOut.memWe, hm] at h
  · simp [goesOnOut, BlockOut.memWe, hm] at h
  · exact ht

/-- R14: 11 bytes fit the 4 bits of `out_len`. -/
theorem BlockOut.outLen_toNat {o : BlockOut} (h : o.outBytes.length ≤ 11) :
    o.outLen.toNat = o.outBytes.length := by
  rw [BlockOut.outLen, BitVec.toNat_ofNat]
  omega

/-! ## The table agrees with the instruction rules -/

/-- The reaction to the outputs of an instruction that ends the run is `raise` (R153). -/
theorem commit_endedOut (s : State) (r : RunResult) (l : List Word) :
    commit s (endedOut s.pc r) l = (s.withStack l).withStatus (.halted r) := by
  simp [commit, endedOut, BlockOut.done, State.withStack, State.withStatus]

/-- At the ports, an issue of `b` in the state `s` makes it `t`, whenever `mem_rdata` is what the
block asks for. -/
def PortsMake (s : State) (b : Byte) (t : State) : Prop :=
  ∀ w o st, block s.stackCapacity (.issue b s.pc w) s.stack = (some o, st) →
    busDrives s.mem o w = true → commit s o st = t

theorem portsMake_of_short {s : State} {b : Byte} (h : s.depth < tagPops (decode b)) :
    PortsMake s b ((s.withStack []).withStatus (.halted .emptyStack)) := by
  intro w o st hblock _
  rw [block_of_short h] at hblock
  cases hblock
  exact commit_endedOut s _ _

theorem portsMake_of_check {s : State} {b : Byte} {rest popped : List Word} {r : RunResult}
    (hs : s.stack = rest ++ popped) (hpops : popped.length = tagPops (decode b))
    (hcheck : tagCheck (decode b) s.stackCapacity (topWord s.stack) rest = some r) :
    PortsMake s b ((s.withStack rest).withStatus (.halted r)) := by
  intro w o st hblock _
  rw [block_of_check hs hpops hcheck] at hblock
  cases hblock
  exact commit_endedOut s _ _

theorem portsMake_of_pass {s t : State} {b : Byte} {rest popped : List Word}
    (hs : s.stack = rest ++ popped) (hpops : popped.length = tagPops (decode b))
    (hcheck : tagCheck (decode b) s.stackCapacity (topWord s.stack) rest = none)
    (hcommit : ∀ w, busDrives s.mem (goesOnOut (decode b) s.pc s.stack) w = true →
      commit s (goesOnOut (decode b) s.pc s.stack)
        (tagStack (decode b) (topWord s.stack) (secondWord s.stack) w rest) = t) :
    PortsMake s b t := by
  intro w o st hblock hbus
  rw [block_of_pass hs hpops hcheck] at hblock
  cases hblock
  exact hcommit w hbus

/-- The row of R70 of an instruction that goes on, makes no request and writes no output: from the
operands `x` and `y` it leaves the stack `l` and the pc `target`. -/
def QuietRow (t : Tag) (capacity : StackCapacity) (pc x y : Word) (rest l : List Word)
    (target : Word) : Prop :=
  tagCheck t capacity x rest = none ∧ (∀ w, tagStack t x y w rest = l) ∧ tagMem t x y = .idle ∧
    tagOut t x = [] ∧ tagPcNext t pc x y = target

theorem portsMake_of_quietRow {s : State} {b : Byte} {t : Tag} {rest popped l : List Word}
    {target : Word} (hd : decode b = t) (hs : s.stack = rest ++ popped)
    (hpops : popped.length = tagPops t)
    (hrow : QuietRow t s.stackCapacity s.pc (topWord s.stack) (secondWord s.stack) rest l target) :
    PortsMake s b ((s.withStack l).withPc target) := by
  subst hd
  obtain ⟨hcheck, hstack, hmem, hout, hpc⟩ := hrow
  refine portsMake_of_pass hs hpops hcheck fun w _ => ?_
  simp [commit, goesOnOut, BlockOut.done, hstack, hmem, hout, hpc, State.withStack, State.withPc]

theorem quietRow_of_noOp {i : Instr} (h : i = .nop ∨ i = .rsvc ∨ i = .rsvd)
    (capacity : StackCapacity) (pc x y : Word) (l : List Word) :
    tagPops (.instr i) = 0 ∧ QuietRow (.instr i) capacity pc x y l l (pc + 1#32) := by
  rcases h with rfl | rfl | rfl <;>
    exact ⟨rfl, rfl, fun _ => rfl, rfl, rfl, w32_toInt_add_one pc⟩

theorem quietRow_of_binaryResult {i : Instr} {a b r : Word} (h : binaryResult i a b = some r)
    (capacity : StackCapacity) (pc : Word) (l : List Word) :
    tagPops (.instr i) = 2 ∧ QuietRow (.instr i) capacity pc b a l (l ++ [r]) (pc + 1#32) := by
  have hpc := w32_toInt_add_one pc
  cases i with
  | add | sub | mul | cmp => cases h; exact ⟨rfl, rfl, fun _ => rfl, rfl, rfl, hpc⟩
  | div =>
    rw [binaryResult] at h
    split_ifs at h with hb
    cases h
    exact ⟨rfl, if_neg hb, fun _ => rfl, rfl, rfl, hpc⟩
  | _ => cases h

/-- The dispatch table agrees with the rule of every instruction, while the depth is within the
capacity: a push after pops then has room, and the table has no check for it (R28). -/
theorem Effect.portsMake {i : Instr} {s t : State} {b : Byte} (h : Effect i s t)
    (hd : decode b = .instr i) (hadmits : s.stackCapacity.admits s.depth = true) :
    PortsMake s b t := by
  have hnil : s.stack = s.stack ++ [] := (List.append_nil _).symm
  have hnext := w32_toInt_add_one s.pc
  cases h with
  | short hshort => exact portsMake_of_short (by rwa [hd])
  | noRoom hs hpopped hne hfull =>
    have hpos := List.length_pos_of_ne_nil hne
    rw [not_isFull_of_admits hadmits (by simp [State.depth, hs]; omega)] at hfull
    cases hfull
  | halts => exact portsMake_of_check hnil (by rw [hd]; rfl) (by rw [hd]; rfl)
  | full hfull => exact portsMake_of_check hnil (by rw [hd]; rfl) (by rw [hd]; exact if_pos hfull)
  | divByZero hs => exact portsMake_of_check hs (by rw [hd]; rfl) (by simp [hd, hs, tagCheck])
  | loadInvalid hs ha | storeInvalid hs ha | pickInvalid hs ha | rollInvalid hs ha =>
    exact portsMake_of_check hs (by rw [hd]; rfl) (by simp [hd, hs, tagCheck, ha])
  | advances hi =>
    obtain ⟨hpops, hrow⟩ := quietRow_of_noOp hi s.stackCapacity s.pc (topWord s.stack)
      (secondWord s.stack) s.stack
    exact portsMake_of_quietRow hd hnil hpops.symm hrow
  | binary hs hr =>
    obtain ⟨hpops, hrow⟩ := quietRow_of_binaryResult hr s.stackCapacity s.pc _
    exact portsMake_of_quietRow hd hs hpops.symm (by simpa [hs] using hrow)
  | pushes hroom =>
    exact portsMake_of_quietRow hd hnil rfl
      ⟨if_neg (by rw [State.depth] at hroom; simp [hroom]), fun _ => rfl, rfl, rfl, hnext⟩
  | drop hs => exact portsMake_of_quietRow hd hs rfl ⟨rfl, fun _ => rfl, rfl, rfl, hnext⟩
  | jmp hs =>
    exact portsMake_of_quietRow hd hs rfl
      ⟨rfl, fun _ => rfl, rfl, rfl, by simp [hs, tagPcNext]⟩
  | jzTaken hs =>
    exact portsMake_of_quietRow hd hs rfl
      ⟨rfl, fun _ => rfl, rfl, rfl, by simp [hs, tagPcNext]⟩
  | jzFallsThrough hs hb =>
    exact portsMake_of_quietRow hd hs rfl
      ⟨rfl, fun _ => rfl, rfl, rfl, by simp [hs, hb, tagPcNext]⟩
  | pick hs ha | roll hs ha =>
    exact portsMake_of_quietRow hd hs rfl
      ⟨by simp [hs, ha, tagCheck], fun _ => by simp [hs, tagStack], rfl, rfl, hnext⟩
  | prtd hs | prtc hs =>
    refine portsMake_of_pass hs (by rw [hd]; rfl) (by rw [hd]; rfl) fun w _ => ?_
    simp [commit, goesOnOut, BlockOut.done, hd, hs, tagPcNext, tagMem, tagOut, tagStack,
      State.withPc, State.withOut, State.withStack]
  | store hs ha =>
    refine portsMake_of_pass hs (by rw [hd]; rfl) (by simp [hd, hs, ha, tagCheck]) fun w _ => ?_
    simp [commit, goesOnOut, BlockOut.done, hd, hs, tagPcNext, tagMem, tagOut, tagStack,
      State.withPc, State.withMem, State.withStack]
  | @load _ l a hs ha _ =>
    refine portsMake_of_pass hs (by rw [hd]; rfl) (by simp [hd, hs, ha, tagCheck]) fun w hbus => ?_
    have hw : w = s.mem.read (cellPort a).toNat := by
      simpa [busDrives, goesOnOut, hd, hs, tagMem] using hbus
    simp [commit, goesOnOut, BlockOut.done, hd, hs, hw, tagPcNext, tagMem, tagOut, tagStack,
      State.withPc, State.withStack]

/-! ## The step at the ports -/

/-- Some value of `mem_rdata` answers every request. -/
theorem exists_busDrives (m : Memory) (o : BlockOut) : ∃ w, busDrives m o w = true := by
  cases hm : o.mem with
  | read a => exact ⟨m.read a.toNat, by simp [busDrives, hm]⟩
  | idle => exact ⟨0#32, by simp [busDrives, hm]⟩
  | write a v => exact ⟨0#32, by simp [busDrives, hm]⟩

/-- R15: issuing the fetched byte makes the state what the step answers. -/
theorem portsMake_step {s t : State} {b : Byte} (hs : s.Inv) (hf : fetch s = .byte b)
    (h : step s = .next t) : PortsMake s b t := by
  obtain ⟨-, hadmits, -, -⟩ := hs
  obtain ⟨-, ⟨r, hf', -⟩ | ⟨b', i, hf', hd, heffect⟩ | ⟨b', hf', hd, rfl⟩⟩ := step_next h <;>
    rw [hf] at hf' <;> cases hf'
  · exact heffect.portsMake hd hadmits
  · exact portsMake_of_check (List.append_nil _).symm (by rw [hd]; rfl) (by rw [hd]; rfl)

/-- In a step that issues no instruction the sequencer makes the end-of-run check alone. -/
theorem PortRun.next_of_idle {s : State} {w : Word}
    (h : (PortRun.started s).input w = .idle) :
    (PortRun.started s).next w = .started (endCheck s) := by
  simp [PortRun.next, PortRun.answer_of_idle h]

/-- In a step that issues an instruction the sequencer follows the block's outputs. -/
theorem PortRun.next_of_issue {s t : State} {b : Byte} {w : Word}
    (h : (PortRun.started s).input w = .issue b s.pc w) (hmake : PortsMake s b t)
    (hbus : (PortRun.started s).busAnswers w = true) :
    (PortRun.started s).next w = .started t := by
  obtain ⟨o, hblock, -⟩ := block_issue s.stackCapacity b s.pc s.stack
  obtain ⟨st, hblock⟩ := hblock w
  have hanswer : (PortRun.started s).answer w = (some o, st) := by simp [PortRun.answer, h, hblock]
  have hbus : busDrives s.mem o w = true := by simpa [PortRun.busAnswers, hanswer] using hbus
  simp [PortRun.next, hanswer, hmake w o st hblock hbus]

/-- R14, R15, R30: a step at the ports of a running state is the machine's step. -/
theorem PortRun.next_eq_step {s t : State} {w : Word} (hs : s.Inv) (h : step s = .next t)
    (hbus : (PortRun.started s).busAnswers w = true) :
    (PortRun.started s).next w = .started t := by
  obtain ⟨hrunning, -⟩ := step_next h
  rcases PortRun.input_started w s with ⟨hidle, hended⟩ | ⟨b, -, hf, hissue⟩
  · obtain ⟨r, hf⟩ := hended hrunning
    rw [step_of_ended hrunning hf] at h
    cases h
    rw [PortRun.next_of_idle hidle, endCheck_of_ended hrunning hf]
  · exact PortRun.next_of_issue hissue (portsMake_step hs hf h) hbus

/-- The block's request does not depend on `mem_rdata`, so some value answers it. -/
theorem PortRun.exists_busAnswers (s : State) : ∃ w, (PortRun.started s).busAnswers w = true := by
  rcases PortRun.input_started 0#32 s with ⟨hidle, -⟩ | ⟨b, hrunning, hf, -⟩
  · exact ⟨0#32, by simp [PortRun.busAnswers, PortRun.answer_of_idle hidle]⟩
  · obtain ⟨o, hblock, -⟩ := block_issue s.stackCapacity b s.pc s.stack
    obtain ⟨w, hbus⟩ := exists_busDrives s.mem o
    obtain ⟨st, hblock⟩ := hblock w
    refine ⟨w, ?_⟩
    simp [PortRun.busAnswers, PortRun.answer, PortRun.input, hrunning, hf, hblock, hbus]

theorem PortRun.input_of_halted {s : State} {r : RunResult} (hs : s.status = .halted r) (w : Word) :
    (PortRun.started s).input w = .idle := by
  simp [PortRun.input, hs]

end Sys2Proof.Machine

namespace Sys2Proof.Proofs

open Sys2Proof.Machine

/-- Settles O49: the dispatch table agrees with the step by `portsMake_step`. -/
theorem blockAtItsPortsDoesTheStep : Obligations.BlockAtItsPortsDoesTheStep := by
  refine ⟨fun s b hinv hs hpc hb => ⟨?_, fun w o st hblock hbus => ?_⟩, fun _ _ => rfl⟩
  · obtain ⟨o, hblock, -⟩ := block_issue s.stackCapacity b s.pc s.stack
    obtain ⟨w, hbus⟩ := exists_busDrives s.mem o
    obtain ⟨st, hblock⟩ := hblock w
    exact ⟨w, o, st, hblock, hbus⟩
  · obtain ⟨t, h⟩ := step_completes hs
    rw [h, portsMake_step hinv (fetch_of_inRange hpc hb) h w o st hblock hbus]

/-- Settles O50: an ended instruction's outputs are `endedOut`, the others' the columns of R70. -/
theorem blockOutputsFitTheirPorts : Obligations.BlockOutputsFitTheirPorts := by
  intro capacity b pc w stack st o h
  obtain ⟨o', hblock, hcases⟩ := block_issue capacity b pc stack
  obtain ⟨st', hblock⟩ := hblock w
  obtain ⟨rfl, rfl⟩ : o' = o ∧ st' = st := by simpa [hblock] using h
  rcases hcases with ⟨r, rfl⟩ | rfl
  · exact ⟨Nat.zero_le _, rfl, fun hre => (by cases hre), fun hwe => (by cases hwe),
      fun hout => absurd rfl hout, fun _ => ⟨rfl, rfl, rfl, rfl, r, rfl, rfl⟩⟩
  · have hlength : (goesOnOut (decode b) pc stack).outBytes.length ≤ 11 := tagOut_length_le _ _
    exact ⟨hlength, BlockOut.outLen_toNat hlength, load_of_memRe, store_of_memWe,
      (tagOut_eq_nil_or_prints _ _).resolve_left, fun hdone => by cases hdone⟩

/-- Settles O51. -/
theorem startPortClearsTheDepthCounter : Obligations.StartPortClearsTheDepthCounter :=
  fun _ _ => rfl

/-- Settles O53. -/
theorem runAtItsPortsFollowsTheMachine : Obligations.RunAtItsPortsFollowsTheMachine := by
  refine ⟨fun s w hinv hs hbus => ?_, PortRun.exists_busAnswers, fun s r w hs => ?_⟩
  · obtain ⟨t, h⟩ := step_completes hs
    exact ⟨t, h, PortRun.next_eq_step hinv h hbus⟩
  · have hidle := PortRun.input_of_halted hs w
    refine ⟨fun b pc w' hissue => ?_, ?_⟩
    · rw [hidle] at hissue
      cases hissue
    · rw [PortRun.next_of_idle hidle, endCheck_of_halted hs]

end Sys2Proof.Proofs
end

section
/-!
PROOFS. Data memory (20_memory.md): which memories are equal, which instruction writes, a load after
a store, and the memory a run starts with.
-/

namespace Sys2Proof.Machine

/-! ## A canonical memory is determined by what its cells read (R40) -/

theorem Memory.read_cons (b : Nat) (w : Word) (m : Memory) (a : Nat) :
    Memory.read ((b, w) :: m) a = if a = b then w else m.read a := rfl

theorem Memory.read_head (b : Nat) (w : Word) (m : Memory) : Memory.read ((b, w) :: m) b = w :=
  if_pos rfl

/-- What the cells read after the head of a canonical memory is taken away. -/
theorem Memory.read_tail {b : Nat} {w : Word} {m : Memory} (h : Memory.wfFrom (b + 1) m = true)
    (a : Nat) : m.read a = if a = b then 0#32 else Memory.read ((b, w) :: m) a := by
  rw [Memory.read_cons]
  split_ifs with hab
  · exact Memory.read_of_lt h (by omega)
  · rfl

/-- No cell below the first listed one reads as other than zero. -/
theorem Memory.head_le {lo a b : Nat} {w : Word} {m : Memory}
    (h : Memory.wfFrom lo ((b, w) :: m) = true) (hread : Memory.read ((b, w) :: m) a ≠ 0#32) :
    b ≤ a := by
  obtain ⟨-, hb, hw, hm⟩ := Memory.wfFrom_cons.mp h
  by_contra hlt
  exact hread (Memory.read_of_lt (Memory.wfFrom_cons.mpr ⟨le_refl b, hb, hw, hm⟩) (by omega))

/-- The first listed cell is a cell of the machine and reads as other than zero. -/
theorem Memory.head_lt_and_read_ne_zero {lo b : Nat} {w : Word} {m : Memory}
    (h : Memory.wfFrom lo ((b, w) :: m) = true) :
    b < 16384 ∧ Memory.read ((b, w) :: m) b ≠ 0#32 := by
  obtain ⟨-, hb, hw, -⟩ := Memory.wfFrom_cons.mp h
  exact ⟨hb, by rwa [Memory.read_head]⟩

/-- The first listed cell of either memory reads as non-zero in both, so the two heads agree, and
with them the tails. -/
theorem Memory.ext_wfFrom {lo : Nat} {m n : Memory} (hm : Memory.wfFrom lo m = true)
    (hn : Memory.wfFrom lo n = true) (hread : ∀ a, a < 16384 → m.read a = n.read a) : m = n := by
  induction m generalizing lo n with
  | nil =>
    cases n with
    | nil => rfl
    | cons d n =>
      obtain ⟨hb, hne⟩ := Memory.head_lt_and_read_ne_zero hn
      exact absurd (hread _ hb).symm hne
  | cons c m ih =>
    obtain ⟨a, v⟩ := c
    obtain ⟨ha, hane⟩ := Memory.head_lt_and_read_ne_zero hm
    cases n with
    | nil => exact absurd (hread _ ha) hane
    | cons d n =>
      obtain ⟨b, w⟩ := d
      obtain ⟨hb, hbne⟩ := Memory.head_lt_and_read_ne_zero hn
      have hba : b ≤ a := Memory.head_le hn (hread a ha ▸ hane)
      have hab : a ≤ b := Memory.head_le hm (hread b hb ▸ hbne)
      obtain rfl : a = b := le_antisymm hab hba
      have hvw : v = w := by simpa only [Memory.read_head] using hread a ha
      obtain ⟨-, -, -, hm'⟩ := Memory.wfFrom_cons.mp hm
      obtain ⟨-, -, -, hn'⟩ := Memory.wfFrom_cons.mp hn
      have htail : m = n := ih hm' hn' fun i hi => by
        rw [Memory.read_tail (w := v) hm', Memory.read_tail (w := w) hn', hread i hi]
      rw [hvw, htail]

/-- R40: a step that does not fetch the store keeps memory. -/
theorem step_mem {s t : State} (h : step s = .next t) (hf : fetch s ≠ .byte 0x3E#8) :
    t.mem = s.mem := by
  obtain ⟨-, ⟨r, -, rfl⟩ | ⟨b, i, hb, hd, heffect⟩ | ⟨b, -, -, rfl⟩⟩ := step_next h
  · rfl
  · rcases heffect.mem_eq_or_store with hmem | ⟨rfl, -⟩
    · exact hmem
    · rw [← encode_of_decode hd] at hb
      exact absurd hb hf
  · rfl

/-! ## Load and store at a valid address (R120, R121) -/

theorem exec_load_of_valid {s : State} {l : List Word} {a : Word} (hs : s.stack = l ++ [a])
    (ha : validAddress a = true) (hroom : s.stackCapacity.isFull l.length = false) :
    exec .load s =
      .next ((s.withStack (l ++ [s.mem.read a.toInt.toNat])).withPc (s.pc + 1#32)) := by
  have hexec : exec .load s = pop s fun a s => memRead a s fun v => push v s advance := rfl
  rw [hexec, pop_of_append hs, memRead_of_valid ha, push_of_room hroom, advance_eq, cellPort_toNat ha]
  rfl

theorem exec_store_of_valid {s : State} {l : List Word} {a b : Word} (hs : s.stack = l ++ [b, a])
    (ha : validAddress a = true) :
    exec .store s =
      .next (((s.withStack l).withMem (s.mem.write a.toInt.toNat b)).withPc (s.pc + 1#32)) := by
  have hexec : exec .store s = popTopSecond s fun a b s => memWrite a b s advance := rfl
  rw [hexec, popTopSecond_of_append hs, memWrite_of_valid ha, advance_eq, cellPort_toNat ha]
  rfl

/-- Valid addresses name the same cell only if they are the same word. -/
theorem toNat_toInt_inj {a c : Word} (ha : 0 ≤ a.toInt) (hc : 0 ≤ c.toInt) :
    c.toInt.toNat = a.toInt.toNat ↔ c = a :=
  ⟨fun h => BitVec.eq_of_toInt_eq (by omega), fun h => by rw [h]⟩

/-- After an instruction's pops there is room for a push (R12). -/
theorem State.Inv.room {s : State} {l popped : List Word} (hs : s.Inv)
    (hstack : s.stack = l ++ popped) (hne : popped ≠ []) :
    s.stackCapacity.isFull l.length = false := by
  obtain ⟨-, hadmits, -, -⟩ := hs
  have hpos := List.length_pos_iff.mpr hne
  exact not_isFull_of_admits hadmits (by rw [State.depth, hstack, List.length_append]; omega)

/-! ## The memory a run starts with (R47) -/

theorem initMemoryFrom_read_of_lt {lo a : Nat} {values : List Word} (h : a < lo) :
    (initMemoryFrom lo values).read a = 0#32 := by
  induction values generalizing lo with
  | nil => rfl
  | cons v vs ih =>
    rw [initMemoryFrom]
    split_ifs
    · exact ih (by omega)
    · rw [Memory.read_cons, if_neg (by omega)]
      exact ih (by omega)

/-- The cell `k` places after the first reads the value at position `k`, zero where the list has
none. -/
theorem initMemoryFrom_read_add (lo k : Nat) (values : List Word) :
    (initMemoryFrom lo values).read (lo + k) = values[k]?.getD 0#32 := by
  induction values generalizing lo k with
  | nil => rfl
  | cons v vs ih =>
    rw [initMemoryFrom]
    cases k with
    | zero =>
      split_ifs with hv
      · rw [initMemoryFrom_read_of_lt (by omega), hv]
        rfl
      · exact Memory.read_head lo v _
    | succ k =>
      have hcell : lo + (k + 1) = lo + 1 + k := by omega
      rw [List.getElem?_cons_succ, ← ih (lo + 1) k, hcell]
      split_ifs
      · rfl
      · rw [Memory.read_cons, if_neg (by omega)]

theorem initMemory_read {values : List Word} {a : Nat} (ha : a < 16384) :
    (initMemory values).read a = values[a]?.getD 0#32 := by
  have htake : (values.take Config.memCapacity)[a]? = values[a]? := List.getElem?_take_of_lt ha
  rw [initMemory, ← htake, ← initMemoryFrom_read_add 0, Nat.zero_add]

end Sys2Proof.Machine

namespace Sys2Proof.Proofs

open Sys2Proof.Machine

/-- Settles O23: the store's memory is one `write`, and the load's cell one `read` of it. -/
theorem loadAfterStoreGivesTheStoredWord : Obligations.LoadAfterStoreGivesTheStoredWord := by
  intro s l a b hinv hs ha0 ha1
  refine ⟨_, exec_store_of_valid hs ((validAddress_iff a).mpr ⟨ha0, ha1⟩), fun c hc0 hc1 => ?_⟩
  refine ⟨_, exec_load_of_valid rfl ((validAddress_iff c).mpr ⟨hc0, hc1⟩)
    (hinv.room hs (List.cons_ne_nil _ _)), rfl, ?_⟩
  obtain ⟨hwf, -, -, -⟩ := hinv
  have hread : (s.mem.write a.toInt.toNat b).read c.toInt.toNat =
      if c = a then b else s.mem.read c.toInt.toNat := by
    simp only [Memory.read_write hwf, toNat_toInt_inj ha0 hc0]
  exact congrArg (fun w => l ++ [w]) hread

/-- Settles O24. -/
theorem initMemoryCopiesThenZeroFills : Obligations.InitMemoryCopiesThenZeroFills := by
  refine fun values a ha => ⟨fun v hv => ?_, fun hlength => ?_⟩
  · rw [initMemory_read ha, hv, Option.getD_some]
  · rw [initMemory_read ha, List.getElem?_eq_none hlength, Option.getD_none]

/-- Settles O25. -/
theorem memoryIsItsCellsAndOnlyStoreChangesIt : Obligations.MemoryIsItsCellsAndOnlyStoreChangesIt :=
  ⟨fun _ _ => step_mem, fun _ _ => Memory.ext_wfFrom⟩

end Sys2Proof.Proofs
end

section
/-!
PROOFS. The output is write-only (20_memory.md R44): an operation of the machine does the same after
bytes are put in front of the output, and leaves them there. Each operation that takes the rest of
its instruction keeps this property of the rest.
-/

namespace Sys2Proof.Machine

/-- The state with `bytes` in front of its output. -/
def State.prependOut (bytes : List Byte) (s : State) : State := s.withOut (bytes ++ s.out)

/-- The answer with `bytes` in front of the output of its next state. -/
def Result.prependOut (bytes : List Byte) : Result → Result
  | .next t => .next (t.prependOut bytes)
  | .fault r => .fault r
  | .refused r => .refused r

/-- `f` does not look at the output: putting bytes in front of it before `f` or after is the same. -/
def OutBlind (f : State → Result) : Prop :=
  ∀ bytes s, f (s.prependOut bytes) = Result.prependOut bytes (f s)

/-! ## Each operation -/

theorem raise_outBlind (r : RunResult) : OutBlind (raise r) := fun _ _ => rfl

theorem advance_outBlind : OutBlind advance := fun _ _ => rfl

theorem jumpBy_outBlind (offset : Word) : OutBlind (jumpBy offset) := fun _ _ => rfl

/-- A change of the state before the rest of an instruction. -/
theorem OutBlind.comp {rest : State → Result} {g : State → State} (h : OutBlind rest)
    (hg : ∀ bytes s, g (s.prependOut bytes) = (g s).prependOut bytes) :
    OutBlind fun s => rest (g s) :=
  fun bytes s => (congrArg rest (hg bytes s)).trans (h bytes (g s))

/-- A test that does not look at the output. -/
theorem ite_outBlind {c : State → Bool} {f g : State → Result}
    (hc : ∀ bytes s, c (s.prependOut bytes) = c s) (hf : OutBlind f) (hg : OutBlind g) :
    OutBlind fun s => if c s then f s else g s := by
  intro bytes s
  simp only [hc, hf bytes s, hg bytes s]
  exact (apply_ite (Result.prependOut bytes) _ _ _).symm

theorem outWrite_outBlind (written : List Byte) {rest : State → Result} (h : OutBlind rest) :
    OutBlind fun s => rest (outWrite written s) :=
  h.comp fun bytes s => congrArg s.withOut (List.append_assoc bytes s.out written)

theorem push_outBlind (v : Word) {rest : State → Result} (h : OutBlind rest) :
    OutBlind fun s => push v s rest :=
  ite_outBlind (c := fun s => s.stackCapacity.isFull s.depth) (fun _ _ => rfl) (raise_outBlind _)
    (h.comp fun _ _ => rfl)

theorem pop_outBlind {rest : Word → State → Result} (h : ∀ v, OutBlind (rest v)) :
    OutBlind fun s => pop s rest := by
  intro bytes s
  rcases List.eq_nil_or_concat s.stack with hs | ⟨l, v, hs⟩
  · have hs' : (s.prependOut bytes).stack = [] := hs
    simp only [pop_of_empty hs, pop_of_empty hs', raise_outBlind .emptyStack bytes s]
  · rw [List.concat_eq_append] at hs
    have hs' : (s.prependOut bytes).stack = l ++ [v] := hs
    simp only [pop_of_append hs, pop_of_append hs']
    exact h v bytes (s.withStack l)

theorem popLeftRight_outBlind {rest : Word → Word → State → Result}
    (h : ∀ a b, OutBlind (rest a b)) : OutBlind fun s => popLeftRight s rest :=
  pop_outBlind fun b => pop_outBlind fun a => h a b

theorem popTopSecond_outBlind {rest : Word → Word → State → Result}
    (h : ∀ a b, OutBlind (rest a b)) : OutBlind fun s => popTopSecond s rest :=
  pop_outBlind fun a => pop_outBlind fun b => h a b

theorem peek_outBlind (k : Word) {rest : Word → State → Result} (h : ∀ v, OutBlind (rest v)) :
    OutBlind fun s => peek k s fun v => rest v s :=
  ite_outBlind (c := fun s => validIndex k s.depth) (fun _ _ => rfl) (fun bytes s => h _ bytes s)
    (raise_outBlind _)

theorem rotateToTop_outBlind (k : Word) {rest : State → Result} (h : OutBlind rest) :
    OutBlind fun s => rotateToTop k s rest :=
  ite_outBlind (c := fun s => validIndex k s.depth) (fun _ _ => rfl) (h.comp fun _ _ => rfl)
    (raise_outBlind _)

theorem memRead_outBlind (a : Word) {rest : Word → State → Result} (h : ∀ v, OutBlind (rest v)) :
    OutBlind fun s => memRead a s fun v => rest v s :=
  ite_outBlind (c := fun _ => validAddress a) (fun _ _ => rfl) (fun bytes s => h _ bytes s)
    (raise_outBlind _)

theorem memWrite_outBlind (a v : Word) {rest : State → Result} (h : OutBlind rest) :
    OutBlind fun s => memWrite a v s rest :=
  ite_outBlind (c := fun _ => validAddress a) (fun _ _ => rfl) (h.comp fun _ _ => rfl)
    (raise_outBlind _)

/-! ## Each instruction, and the step -/

/-- No instruction looks at the output: each is made of operations that do not. -/
theorem exec_outBlind (i : Instr) : OutBlind (exec i) := by
  have push_advance : ∀ v, OutBlind fun s => push v s advance :=
    fun v => push_outBlind v advance_outBlind
  have binary_outBlind : ∀ f, OutBlind (binary f) :=
    fun f => popLeftRight_outBlind fun a b => push_advance (f a b)
  cases i with
  | nop | rsvc | rsvd => exact advance_outBlind
  | halt => exact raise_outBlind .ok
  | pushd d => exact push_advance (digitValue d)
  | add | sub | mul | cmp => exact binary_outBlind _
  | div =>
    exact popLeftRight_outBlind fun a b =>
      ite_outBlind (c := fun _ => isZero b) (fun _ _ => rfl) (raise_outBlind .divisionByZero)
        (push_advance (aluDiv a b))
  | prtd | prtc => exact pop_outBlind fun _ => outWrite_outBlind _ advance_outBlind
  | jmp => exact pop_outBlind jumpBy_outBlind
  | jz =>
    exact popTopSecond_outBlind fun a b =>
      ite_outBlind (c := fun _ => isZero b) (fun _ _ => rfl) (jumpBy_outBlind a) advance_outBlind
  | load => exact pop_outBlind fun a => memRead_outBlind a push_advance
  | store => exact popTopSecond_outBlind fun a b => memWrite_outBlind a b advance_outBlind
  | pick => exact pop_outBlind fun a => peek_outBlind a push_advance
  | roll => exact pop_outBlind fun a => rotateToTop_outBlind a advance_outBlind
  | drop => exact pop_outBlind fun _ => advance_outBlind

/-- The sequencer looks at the status, the `pc` and the program alone (R30). -/
theorem step_outBlind : OutBlind step := by
  intro bytes s
  cases hs : s.status with
  | halted r => rw [step_of_halted hs]; exact step_of_halted hs
  | running =>
    cases hf : fetch s with
    | ended r => rw [step_of_ended hs hf]; exact step_of_ended hs hf
    | byte b =>
      cases hd : decode b with
      | illegal => rw [step_of_illegal hs hf hd]; exact step_of_illegal hs hf hd
      | instr i =>
        rw [step_of_instr hs hf hd, ← exec_outBlind i bytes s]
        exact step_of_instr hs hf hd

/-- A next state with bytes in front comes from a next state without them. -/
theorem Result.prependOut_eq_next {bytes : List Byte} {r : Result} {t : State}
    (h : Result.prependOut bytes r = .next t) : ∃ u, r = .next u ∧ t = u.prependOut bytes := by
  cases r with
  | next u => exact ⟨u, rfl, (Host.Outcome.next.inj h).symm⟩
  | fault | refused => cases h

/-- Every state is the one with an empty output and its own output put in front. -/
theorem State.prependOut_withOut_nil (bytes : List Byte) (s : State) :
    (s.withOut []).prependOut bytes = s.withOut bytes :=
  congrArg s.withOut (List.append_nil bytes)

end Sys2Proof.Machine

namespace Sys2Proof.Proofs

open Sys2Proof.Machine

/-- Settles O17: the bytes are those the same step writes after an empty output. -/
theorem outputInfluencesNothing : Obligations.OutputInfluencesNothing := by
  intro s t h
  have hstep : ∀ other, step (s.withOut other) = Result.prependOut other (step (s.withOut [])) :=
    fun other => by rw [← State.prependOut_withOut_nil, step_outBlind]
  rw [← s.withOut_self, hstep] at h
  obtain ⟨u, hu, rfl⟩ := Result.prependOut_eq_next h
  refine ⟨u.out, rfl, fun other => ?_⟩
  exact (hstep other).trans (congrArg (Result.prependOut other) hu)

end Sys2Proof.Proofs
end

section
/-!
PROOFS. Encoding (30_encoding.md): the decoder and the encoder are inverse to each other on the well
formed instructions, and the rows of the opcode map are exactly their pairs of byte and instruction.
-/

namespace Sys2Proof.Machine

open Sys2Proof.Claims

/-! ## The decoder on the encoder's bytes, and back (R60, R62, R63) -/

/-- The byte of a well-formed instruction decodes to it. -/
theorem decode_encode {i : Instr} (h : i.wellFormed = true) : decode (encode i) = .instr i := by
  cases i with
  | pushd d =>
    have digits : ∀ d, Instr.wellFormed (.pushd d) = true →
        decode (encode (.pushd d)) = .instr (.pushd d) := by decide
    exact digits d h
  | _ => rfl

/-- The low nibble of a digit's byte is the digit (R60). -/
theorem digitField_toNat_le {b : Byte} (hlow : 0x30#8 ≤ b) (hhigh : b ≤ 0x39#8) :
    (digitField b).toNat ≤ 9 := by
  have hfield : (digitField b).toNat = b.toNat % 16 := by simp [digitField]
  rw [BitVec.le_def] at hlow hhigh
  simp only [BitVec.toNat_ofNat] at hlow hhigh
  omega

/-- The decoder answers no digit above 9. -/
theorem wellFormed_of_decode {b : Byte} {i : Instr} (h : decode b = .instr i) :
    i.wellFormed = true := by
  unfold decode at h
  split at h
  next hdigit =>
    obtain ⟨hlow, hhigh⟩ := hdigit
    cases h
    exact decide_eq_true (digitField_toNat_le hlow hhigh)
  next => split at h <;> cases h <;> rfl

theorem decode_eq_instr_iff {b : Byte} {i : Instr} :
    decode b = .instr i ↔ i.wellFormed = true ∧ encode i = b :=
  ⟨fun h => ⟨wellFormed_of_decode h, encode_of_decode h⟩, fun ⟨hwf, hb⟩ => hb ▸ decode_encode hwf⟩

/-! ## The rows of the opcode map (R62) -/

theorem mem_opcodeMap_iff {b : Byte} {i : Instr} :
    (b, i) ∈ opcodeMap ↔ i.wellFormed = true ∧ encode i = b := by
  constructor
  · have rows : ∀ row ∈ opcodeMap, row.2.wellFormed = true ∧ encode row.2 = row.1 := by decide
    exact rows (b, i)
  · rintro ⟨hwf, rfl⟩
    cases i with
    | pushd d =>
      have digits : ∀ d, Instr.wellFormed (.pushd d) = true →
          (encode (.pushd d), .pushd d) ∈ opcodeMap := by decide
      exact digits d hwf
    | _ => decide

theorem decode_eq_instr_iff_mem_opcodeMap {b : Byte} {i : Instr} :
    decode b = .instr i ↔ (b, i) ∈ opcodeMap :=
  decode_eq_instr_iff.trans mem_opcodeMap_iff.symm

/-- R63: the decoder's default case. -/
theorem decode_of_unmapped {b : Byte} (h : b ∉ opcodeMap.map Prod.fst) : decode b = .illegal := by
  cases hd : decode b with
  | illegal => rfl
  | instr i => exact absurd (List.mem_map_of_mem (decode_eq_instr_iff_mem_opcodeMap.mp hd)) h

end Sys2Proof.Machine

namespace Sys2Proof.Proofs

open Sys2Proof.Machine

/-- Settles O2: the decoder answers only well-formed instructions, each with its own byte. -/
theorem decodeInvertsEncode : Obligations.DecodeInvertsEncode :=
  fun _ _ => decode_eq_instr_iff

/-- Settles O1: the rows of the map are the pairs the decoder answers, so a byte in no row has no
instruction to decode to. -/
theorem decoderFollowsTheOpcodeMap : Obligations.DecoderFollowsTheOpcodeMap :=
  ⟨rfl, fun _ => decode_eq_instr_iff_mem_opcodeMap.mpr, fun _ => decode_of_unmapped⟩

/-- Settles O3: ten of the words are bytes of the encoder, and two stand in no row of the map. -/
theorem sampleWordsDecodeAsTheSpecSays : Obligations.SampleWordsDecodeAsTheSpecSays :=
  ⟨decode_encode (i := .nop) rfl, decode_encode (i := .pushd 7) rfl,
    decode_encode (i := .sub) rfl, decode_encode (i := .prtc) rfl,
    decode_encode (i := .prtd) rfl, decode_encode (i := .jmp) rfl,
    decode_encode (i := .store) rfl, decode_encode (i := .roll) rfl,
    decode_encode (i := .rsvd) rfl, decode_encode (i := .halt) rfl,
    decode_of_unmapped (by decide), decode_of_unmapped (by decide)⟩

end Sys2Proof.Proofs
end

section
/-!
PROOFS. The no-op and the digit push (40_literal_nop.md).
-/

namespace Sys2Proof.Machine

/-! ## The bytes of the no-op and of the digits (R60, R62) -/

/-- A well-formed instruction has its own byte and no other. -/
theorem decode_eq_instr_iff_eq_encode {b : Byte} {i : Instr} (h : i.wellFormed = true) :
    decode b = .instr i ↔ b = encode i := by
  rw [decode_eq_instr_iff, and_iff_right h, eq_comm]

theorem encode_pushd_toNat (d : BitVec 4) : (encode (.pushd d)).toNat = 0x30 + d.toNat := by
  have happend : (encode (.pushd d)).toNat = 3 <<< 4 ||| d.toNat := BitVec.toNat_append 3#4 d
  exact happend.trans (Nat.shiftLeft_add_eq_or_of_lt d.isLt 3).symm

theorem wellFormed_pushd_iff (d : BitVec 4) : (Instr.pushd d).wellFormed = true ↔ d.toNat ≤ 9 :=
  decide_eq_true_iff

theorem decode_eq_pushd_iff {b : Byte} {d : BitVec 4} :
    decode b = .instr (.pushd d) ↔ d.toNat ≤ 9 ∧ b.toNat = 0x30 + d.toNat := by
  rw [decode_eq_instr_iff, wellFormed_pushd_iff, ← BitVec.toNat_inj, encode_pushd_toNat, eq_comm]

/-! ## The digit push (R81) -/

/-- R64: the digit is zero-extended, so as a signed word it is the digit itself. -/
theorem digitValue_toInt (d : BitVec 4) : (digitValue d).toInt = d.toNat := by
  have hlt := d.isLt
  have hnat : (digitValue d).toNat = d.toNat := BitVec.toNat_setWidth_of_le (by decide)
  rw [BitVec.toInt_eq_toNat_of_lt (by omega), hnat]

theorem exec_pushd_of_room {s : State} (h : s.stackCapacity.isFull s.depth = false) (d : BitVec 4) :
    exec (.pushd d) s =
      .next { s with stack := s.stack ++ [digitValue d], pc := s.pc + 1#32 } := by
  have hexec : exec (.pushd d) s = push (digitValue d) s advance := rfl
  rw [hexec, push_of_room h, advance_eq]
  rfl

theorem exec_pushd_of_full {s : State} (h : s.stackCapacity.isFull s.depth = true) (d : BitVec 4) :
    exec (.pushd d) s = .next { s with status := .halted .allocationFailure } := by
  have hexec : exec (.pushd d) s = push (digitValue d) s advance := rfl
  rw [hexec, push_of_full h, raise_eq]

/-- R28: within the capacity only a digit push can find the storage full, since every other push
follows a pop. -/
theorem Effect.pushd_of_allocationFailure {i : Instr} {s t : State} (h : Effect i s t)
    (hinv : s.Inv) (hs : s.status = .running) (ht : t.status = .halted .allocationFailure) :
    ∃ d, i = .pushd d := by
  cases h with
  | full => exact ⟨_, rfl⟩
  | noRoom hstack _ hne hfull =>
    rw [hinv.room hstack hne] at hfull
    cases hfull
  | halts | short | divByZero | loadInvalid | storeInvalid | pickInvalid | rollInvalid => cases ht
  | advances | pushes | binary | prtd | prtc | jmp | jzTaken | jzFallsThrough | load | store | pick
  | roll | drop =>
    have hgoesOn : s.status = .halted .allocationFailure := ht
    rw [hs] at hgoesOn
    cases hgoesOn

end Sys2Proof.Machine

namespace Sys2Proof.Proofs

open Sys2Proof.Machine

/-- Settles O6: the storage is full or has room, by `isFull_iff`. -/
theorem pushdPushesTheDigitOrReportsFullStorage :
    Obligations.PushdPushesTheDigitOrReportsFullStorage := by
  refine ⟨fun b d => decode_eq_pushd_iff, fun s d _ hroom => ?_, fun s d _ hfull => ?_,
    fun i s t hinv hs h ht => (exec_effect h).pushd_of_allocationFailure hinv hs ht⟩
  · have hroom : s.stackCapacity.isFull s.depth = false := by
      rwa [Bool.eq_false_iff, ne_eq, isFull_iff]
    exact ⟨digitValue d, digitValue_toInt d, exec_pushd_of_room hroom d⟩
  · exact exec_pushd_of_full ((isFull_iff _ _).mpr hfull) d

/-- Settles O4. -/
theorem nopOnlyAdvancesThePc : Obligations.NopOnlyAdvancesThePc :=
  ⟨fun _ => decode_eq_instr_iff_eq_encode rfl, advance_eq⟩

end Sys2Proof.Proofs
end

section
/-!
PROOFS. The stack ALU (41_alu.md). One equation for a binary operation that has a result, one for an
instruction that finds too few operands; each operation's result is then a fact about words.
-/

namespace Sys2Proof.Machine

open Sys2Proof.Claims

/-! ## A binary operation on its two operands (R89) -/

/-- R154: an instruction of two pops that finds fewer elements consumes those there are. -/
theorem exec_of_short {i : Instr} {s : State} (hi : tagPops (.instr i) = 2) (h : s.depth < 2) :
    exec i s = .next { s with stack := [], status := .halted .emptyStack } := by
  cases i with
  | add | sub | mul | div | cmp => exact popLeftRight_of_short h _
  | jz | store => exact popTopSecond_of_short h _
  | _ => cases hi

/-- The two operands of a binary operation leave room for its result. -/
theorem exec_of_binaryResult {i : Instr} {s : State} {l : List Word} {a b r : Word} (hinv : s.Inv)
    (hs : s.stack = l ++ [a, b]) (hr : binaryResult i a b = some r) :
    exec i s = .next { s with stack := l ++ [r], pc := s.pc + 1#32 } := by
  have push_result : push r (s.withStack l) advance =
      .next { s with stack := l ++ [r], pc := s.pc + 1#32 } := by
    have hroom : (s.withStack l).stackCapacity.isFull (s.withStack l).depth = false :=
      hinv.room hs (by simp)
    rw [push_of_room hroom, advance_eq]
    rfl
  cases i with
  | add | sub | mul | cmp =>
    cases hr
    exact (popLeftRight_of_append hs _).trans push_result
  | div =>
    obtain ⟨hb, ⟨⟩⟩ := Option.ite_none_left_eq_some.mp hr
    refine (popLeftRight_of_append hs _).trans ?_
    rw [if_neg (mt (isZero_iff b).mp hb)]
    exact push_result
  | _ => cases hr

/-- R93, R155: the divisor is tested after both pops. -/
theorem exec_div_of_zero {s : State} {l : List Word} {a : Word} (hs : s.stack = l ++ [a, 0#32]) :
    exec .div s = .next { s with stack := l, status := .halted .divisionByZero } :=
  popLeftRight_of_append hs _

/-! ## The quotient and the comparison -/

/-- The sign and the magnitude that R93 gives are those of the truncated quotient. -/
theorem quotient_towardZero (a b : Int) : quotient .towardZero a b = a.tdiv b := by
  have hmagnitude : (a.tdiv b).natAbs = a.natAbs / b.natAbs := Int.natAbs_tdiv a b
  rw [← Int.sign_mul_natAbs (a.tdiv b), Int.sign_tdiv, hmagnitude, quotient]
  split
  next hsmall => simp [Nat.div_eq_of_lt hsmall]
  next => rfl

theorem wraps_aluDiv (a b : Word) : Wraps (a.toInt.tdiv b.toInt) (aluDiv a b) := by
  rw [← quotient_towardZero]
  exact wraps_w32 _

theorem compareWords_toInt (a b : Word) : (compareWords a b).toInt =
    if a.toInt < b.toInt then -1 else if a.toInt = b.toInt then 0 else 1 := by
  unfold compareWords
  split_ifs <;> rfl

end Sys2Proof.Machine

namespace Sys2Proof.Proofs

open Sys2Proof.Machine

/-- Settles O12: a zero divisor has no result, and every other one has the truncated quotient,
`-2^31 / -1` wrapped like the rest. -/
theorem divPushesTheTruncatedQuotient : Obligations.DivPushesTheTruncatedQuotient :=
  ⟨fun _ => decode_eq_instr_iff_eq_encode rfl,
    fun _ _ a b hinv hs hb =>
      ⟨aluDiv a b, wraps_aluDiv a b, exec_of_binaryResult hinv hs (if_neg hb)⟩,
    fun _ _ _ hs => exec_div_of_zero hs,
    fun _ hd => exec_of_short rfl hd⟩

/-- Settles O9: the sum is wrapped once, by `w32`. -/
theorem addPushesTheWrappedSum : Obligations.AddPushesTheWrappedSum :=
  ⟨fun _ => decode_eq_instr_iff_eq_encode rfl,
    fun _ _ a b hinv hs => ⟨aluAdd a b, wraps_w32 _, exec_of_binaryResult hinv hs rfl⟩,
    fun _ hd => exec_of_short rfl hd⟩

/-- Settles O10: `b` is the top, so the difference is second from top minus top. -/
theorem subPushesTheWrappedDifference : Obligations.SubPushesTheWrappedDifference :=
  ⟨fun _ => decode_eq_instr_iff_eq_encode rfl,
    fun _ _ a b hinv hs => ⟨aluSub a b, wraps_w32 _, exec_of_binaryResult hinv hs rfl⟩,
    fun _ hd => exec_of_short rfl hd⟩

/-- Settles O11: the product is wrapped once, by `w32`. -/
theorem mulPushesTheWrappedProduct : Obligations.MulPushesTheWrappedProduct :=
  ⟨fun _ => decode_eq_instr_iff_eq_encode rfl,
    fun _ _ a b hinv hs => ⟨aluMul a b, wraps_w32 _, exec_of_binaryResult hinv hs rfl⟩,
    fun _ hd => exec_of_short rfl hd⟩

/-- Settles O13: the comparison is of the signed words themselves, so no subtraction can wrap. -/
theorem cmpPushesTheSignedComparison : Obligations.CmpPushesTheSignedComparison :=
  ⟨fun _ => decode_eq_instr_iff_eq_encode rfl,
    fun _ _ a b hinv hs =>
      ⟨compareWords a b, compareWords_toInt a b, exec_of_binaryResult hinv hs rfl⟩,
    fun _ hd => exec_of_short rfl hd⟩

end Sys2Proof.Proofs
end

section
/-!
PROOFS. The two output instructions (42_output.md). One equation for a print that has its operand,
one for an instruction of one pop that finds the stack empty; what is printed is then a fact about
words.
-/

namespace Sys2Proof.Machine

open Sys2Proof.Claims

/-! ## An instruction of one pop -/

/-- R65: the instructions of one pop begin with it. -/
theorem exec_eq_popTop {i : Instr} (hi : tagPops (.instr i) = 1) (s : State) :
    ∃ rest, exec i s = popTop s rest := by
  cases i with
  | prtd | prtc | jmp | load | pick | roll | drop => rw [exec]; exact ⟨_, rfl⟩
  | _ => cases hi

/-- R154: with no element there is nothing to consume, so the status alone changes. -/
theorem exec_of_empty {i : Instr} {s : State} (hi : tagPops (.instr i) = 1) (h : s.depth = 0) :
    exec i s = .next { s with status := .halted .emptyStack } := by
  obtain ⟨rest, hexec⟩ := exec_eq_popTop hi s
  rw [hexec, popTop, pop_of_empty (List.length_eq_zero_iff.mp h), raise_eq]

/-- A print pops its operand, appends what it makes of it, and goes on. -/
theorem print_of_append {s : State} {l : List Word} {a : Word} (hs : s.stack = l ++ [a])
    (bytes : Word → List Byte) :
    (popTop s fun a s => advance (outWrite (bytes a) s)) =
      .next { s with stack := l, out := s.out ++ bytes a, pc := s.pc + 1#32 } := by
  rw [popTop, pop_of_append hs, advance_eq]
  rfl

/-! ## The decimal digits of a number (R100) -/

/-- `digits` is what `IsDecimal` asks of the digits of a magnitude `n`. -/
structure IsDigits (n : Nat) (digits : List Nat) : Prop where
  ne_nil : digits ≠ []
  le_nine : ∀ d ∈ digits, d ≤ 9
  no_leading_zero : digits.head? = some 0 → digits = [0]
  value : digits.foldl (fun n d => 10 * n + d) 0 = n

theorem isDecimal_iff {a : Word} {bytes : List Byte} :
    IsDecimal a bytes ↔ ∃ digits, IsDigits a.toInt.natAbs digits ∧
      bytes = (if a.toInt < 0 then [0x2D#8] else []) ++ digits.map digitByte :=
  ⟨fun ⟨digits, hne, hle, hzero, hvalue, hbytes⟩ => ⟨digits, ⟨hne, hle, hzero, hvalue⟩, hbytes⟩,
    fun ⟨digits, ⟨hne, hle, hzero, hvalue⟩, hbytes⟩ => ⟨digits, hne, hle, hzero, hvalue, hbytes⟩⟩

theorem isDigits_singleton {d : Nat} (h : d ≤ 9) : IsDigits d [d] where
  ne_nil := List.cons_ne_nil d []
  le_nine := by simpa using h
  no_leading_zero := by simp
  value := by simp

/-- A further digit behind those of a positive number: that the number is positive is what keeps the
longer string free of a leading zero. -/
theorem IsDigits.append_digit {n d : Nat} {digits : List Nat} (h : IsDigits n digits) (hn : 0 < n)
    (hd : d ≤ 9) : IsDigits (10 * n + d) (digits ++ [d]) where
  ne_nil := by simp
  le_nine := by simpa [or_imp, forall_and] using ⟨h.le_nine, hd⟩
  no_leading_zero hhead := by
    rw [List.head?_append_of_ne_nil _ h.ne_nil] at hhead
    have hzero : n = 0 := by rw [← h.value, h.no_leading_zero hhead]; rfl
    omega
  value := by simp [h.value]

/-- The recursion on the fuel splits off the last digit; fuel for as many digits as the number has
is enough. -/
theorem exists_isDigits_decimalDigits {fuel n : Nat} (hfuel : 0 < fuel) (hn : n < 10 ^ fuel) :
    ∃ digits, IsDigits n digits ∧ decimalDigits fuel n = digits.map digitByte := by
  induction fuel generalizing n with
  | zero => exact absurd hfuel (Nat.lt_irrefl 0)
  | succ fuel ih =>
    rw [decimalDigits]
    split_ifs with hsmall
    · exact ⟨[n], isDigits_singleton (Nat.le_of_lt_succ hsmall), rfl⟩
    · have hquot : n / 10 < 10 ^ fuel := Nat.div_lt_of_lt_mul (by rwa [Nat.pow_succ'] at hn)
      have hpos : 0 < n / 10 := by omega
      have hfuel' : 0 < fuel := Nat.pos_of_ne_zero fun h => by simp [h] at hquot; omega
      obtain ⟨digits, hdigits, hbytes⟩ := ih hfuel' hquot
      refine ⟨digits ++ [n % 10], ?_, by simp [hbytes]⟩
      have happend := hdigits.append_digit (d := n % 10) hpos (by omega)
      rwa [Nat.div_add_mod] at happend

/-! ## The bytes of a word -/

/-- R100: the magnitude of a word, at most 2^31, has no more than ten digits. -/
theorem isDecimal_decimal (a : Word) : IsDecimal a (decimal a) := by
  have hmagnitude : a.toInt.natAbs < 10 ^ 10 := by
    have hlow := BitVec.le_two_mul_toInt (x := a)
    have hhigh := BitVec.two_mul_toInt_lt (x := a)
    omega
  obtain ⟨digits, hdigits, hbytes⟩ := exists_isDigits_decimalDigits (by decide) hmagnitude
  refine isDecimal_iff.mpr ⟨digits, hdigits, ?_⟩
  rw [decimal, hbytes]
  split_ifs <;> rfl

theorem length_pos_of_isDecimal {a : Word} {bytes : List Byte} (h : IsDecimal a bytes) :
    0 < bytes.length := by
  obtain ⟨digits, hdigits, rfl⟩ := isDecimal_iff.mp h
  have hpos := List.length_pos_iff.mpr hdigits.ne_nil
  rw [List.length_append, List.length_map]
  omega

/-- R101: 256 divides 2^32, so the low byte of the two's-complement word is the residue of its
signed value. -/
theorem lowByte_toNat (a : Word) : ((lowByte a).toNat : Int) = a.toInt % 256 := by
  have hbyte : (lowByte a).toNat = a.toNat % 256 := by simp [lowByte]
  rw [hbyte, BitVec.toInt_eq_toNat_cond]
  split_ifs <;> omega

end Sys2Proof.Machine

namespace Sys2Proof.Proofs

open Sys2Proof.Machine

/-- Settles O14: the bytes are those of `decimal`. -/
theorem prtdWritesTheDecimalRepresentation : Obligations.PrtdWritesTheDecimalRepresentation :=
  ⟨fun _ => decode_eq_instr_iff_eq_encode rfl,
    fun _ _ a hs =>
      ⟨decimal a, isDecimal_decimal a, length_pos_of_isDecimal (isDecimal_decimal a),
        decimal_length_le a, print_of_append hs decimal⟩,
    fun _ hd => exec_of_empty rfl hd⟩

/-- Settles O15: the byte is the low byte of the word. -/
theorem prtcWritesTheResidueModulo256 : Obligations.PrtcWritesTheResidueModulo256 :=
  ⟨fun _ => decode_eq_instr_iff_eq_encode rfl,
    fun _ _ a hs => ⟨lowByte a, lowByte_toNat a, print_of_append hs fun a => [lowByte a]⟩,
    fun _ hd => exec_of_empty rfl hd⟩

end Sys2Proof.Proofs
end

section
/-!
PROOFS. The two relative jumps (43_control.md). One equation per outcome of an instruction that has
its operands; where the next step goes is then a fact about the wrapped target.
-/

namespace Sys2Proof.Machine

/-! ## A jump on its operands (R110, R111) -/

theorem exec_jmp_of_append {s : State} {l : List Word} {a : Word} (hs : s.stack = l ++ [a]) :
    exec .jmp s = .next { s with stack := l, pc := w32 (s.pc.toInt + a.toInt + 1) } :=
  pop_of_append hs _

theorem exec_jz_of_zero {s : State} {l : List Word} {a : Word} (hs : s.stack = l ++ [0#32, a]) :
    exec .jz s = .next { s with stack := l, pc := w32 (s.pc.toInt + a.toInt + 1) } :=
  popTopSecond_of_append hs _

theorem exec_jz_of_ne_zero {s : State} {l : List Word} {a b : Word} (hs : s.stack = l ++ [b, a])
    (hb : b ≠ 0#32) : exec .jz s = .next { s with stack := l, pc := s.pc + 1#32 } := by
  refine (popTopSecond_of_append hs _).trans ?_
  rw [if_neg (mt (isZero_iff b).mp hb), advance_eq]
  rfl

/-- R112 speaks of both instructions at once: a taken jump is a `g`, or a `?` on a zero condition. -/
theorem step_of_taken_jump {s : State} {a : Word} (hs : s.status = .running)
    (htaken : (fetch s = .byte 0x67#8 ∧ ∃ l, s.stack = l ++ [a]) ∨
      (fetch s = .byte 0x3F#8 ∧ ∃ l, s.stack = l ++ [0#32, a])) :
    ∃ l, step s = .next { s with stack := l, pc := w32 (s.pc.toInt + a.toInt + 1) } := by
  rcases htaken with ⟨hf, l, hstack⟩ | ⟨hf, l, hstack⟩
  · exact ⟨l, (step_of_instr hs hf rfl).trans (exec_jmp_of_append hstack)⟩
  · exact ⟨l, (step_of_instr hs hf rfl).trans (exec_jz_of_zero hstack)⟩

/-! ## The end-of-run check after a jump (R30) -/

theorem endsAtFetch_of_end {s : State} (hs : s.status = .running)
    (hpc : s.pc.toInt = s.programLength) : s.endsAtFetch .ok :=
  step_of_ended hs (fetch_of_end hpc)

theorem endsAtFetch_of_outOfBounds {s : State} (hs : s.status = .running)
    (hpc : s.pc.toInt < 0 ∨ (s.programLength : Int) < s.pc.toInt) :
    s.endsAtFetch .programCounterOutOfBounds :=
  step_of_ended hs (fetch_of_outOfBounds hpc)

/-! ## The wrap of a target (R112) -/

/-- Between -2^31 and 2^32 a wrap can only be by one modulus, from 2^31 on, and it leaves a negative
word. -/
theorem w32_toInt_eq_or_neg {v : Int} (hlow : -2147483648 ≤ v) (hhigh : v < 4294967296) :
    (w32 v).toInt = v ∨ 2147483648 ≤ v ∧ (w32 v).toInt < 0 := by
  rw [w32_toInt, Int.bmod_def]
  omega

/-- From a `pc` in range no offset reaches below -2^31 + 1 or above `L + 2^31 - 1`. -/
theorem jump_target_bounds {s : State} (hpc : s.pcInRange) (a : Word) :
    -2147483648 + 1 ≤ s.pc.toInt + a.toInt + 1 ∧
      s.pc.toInt + a.toInt + 1 ≤ s.programLength + 2147483648 - 1 := by
  have hlow := BitVec.le_two_mul_toInt (x := a)
  have hhigh := BitVec.two_mul_toInt_lt (x := a)
  omega

end Sys2Proof.Machine

namespace Sys2Proof.Proofs

open Sys2Proof.Machine

/-- Settles O20: the target wraps only above every program's length, and then to a negative `pc`, so
the exact sum and the `pc` lie on the same side of `[0, L]`. -/
theorem jumpWrapIsUnobservableInTheResult : Obligations.JumpWrapIsUnobservableInTheResult := by
  rintro s a target ⟨-, -, -, hlength⟩ hs hpc htaken rfl
  obtain ⟨hlow, hhigh⟩ := jump_target_bounds hpc a
  obtain ⟨l, hstep⟩ := step_of_taken_jump hs htaken
  rw [Config.maxProgramLength] at hlength
  have hwrap := w32_toInt_eq_or_neg (v := s.pc.toInt + a.toInt + 1) (by omega) (by omega)
  refine ⟨hlow, hhigh, _, hstep, fun h0 hlt => ?_, fun hend => endsAtFetch_of_end hs ?_,
    fun hout => endsAtFetch_of_outOfBounds hs ?_, fun hne => hwrap.resolve_left hne⟩
  · change (w32 _).toInt = _
    omega
  · change (w32 _).toInt = (s.programLength : Int)
    omega
  · change (w32 _).toInt < 0 ∨ (s.programLength : Int) < (w32 _).toInt
    omega

/-- Settles O18: the jump itself ends nothing, and the next step's check finds the target. -/
theorem jmpAddsTheOperandPlusOne : Obligations.JmpAddsTheOperandPlusOne :=
  ⟨fun _ => decode_eq_instr_iff_eq_encode rfl,
    fun _ _ _ hs => ⟨_, wraps_w32 _, exec_jmp_of_append hs⟩,
    fun _ _ _ hrunning hs =>
      ⟨_, exec_jmp_of_append hs, endsAtFetch_of_end hrunning, endsAtFetch_of_outOfBounds hrunning⟩,
    fun _ hd => exec_of_empty rfl hd⟩

/-- Settles O19: both pops come before the test of the condition. -/
theorem jzJumpsOnlyOnZero : Obligations.JzJumpsOnlyOnZero :=
  ⟨fun _ => decode_eq_instr_iff_eq_encode rfl,
    fun _ _ _ hs => ⟨_, wraps_w32 _, exec_jz_of_zero hs⟩,
    fun _ _ _ _ hs hb => exec_jz_of_ne_zero hs hb,
    fun _ hd => exec_of_short rfl hd⟩

end Sys2Proof.Proofs
end

section
/-!
PROOFS. The two memory instructions (44_memory_ops.md). Their equations at a valid address stand with
the data memory; here are the ones at an invalid address, and what one store does to each cell.
-/

namespace Sys2Proof.Machine

/-! ## Load and store at an invalid address (R41, R120, R121) -/

theorem validAddress_eq_false_iff (a : Word) :
    validAddress a = false ↔ a.toInt < 0 ∨ 16384 ≤ a.toInt := by
  rw [Bool.eq_false_iff, ne_eq, validAddress_iff]
  omega

/-- R155: the pop comes before the address check. -/
theorem exec_load_of_invalid {s : State} {l : List Word} {a : Word} (hs : s.stack = l ++ [a])
    (ha : validAddress a = false) :
    exec .load s = .next { s with stack := l, status := .halted .invalidMemoryAddress } := by
  have hexec : exec .load s = pop s fun a s => memRead a s fun v => push v s advance := rfl
  rw [hexec, pop_of_append hs, memRead_of_invalid ha, raise_eq]
  rfl

/-- R155: both pops come before the address check, and nothing is written. -/
theorem exec_store_of_invalid {s : State} {l : List Word} {a b : Word} (hs : s.stack = l ++ [b, a])
    (ha : validAddress a = false) :
    exec .store s = .next { s with stack := l, status := .halted .invalidMemoryAddress } :=
  (popTopSecond_of_append hs _).trans (memWrite_of_invalid ha _)

/-! ## One write, cell by cell (R43) -/

theorem Memory.read_write_same {m : Memory} (h : m.wf = true) (i : Nat) (v : Word) :
    (m.write i v).read i = v := by
  rw [Memory.read_write h, if_pos rfl]

theorem Memory.read_write_of_ne {m : Memory} {i c : Nat} (h : m.wf = true) (hc : c ≠ i) (v : Word) :
    (m.write i v).read c = m.read c := by
  rw [Memory.read_write h, if_neg hc]

/-- R41: `a[13:0]`, an unsigned field, is the signed value of a valid address. -/
theorem cellPort_eq_toInt {a : Word} (h : validAddress a = true) :
    ((cellPort a).toNat : Int) = a.toInt := by
  obtain ⟨hnonneg, -⟩ := (validAddress_iff a).mp h
  rw [cellPort_toNat h, Int.toNat_of_nonneg hnonneg]

end Sys2Proof.Machine

namespace Sys2Proof.Proofs

open Sys2Proof.Machine

/-- Settles O22: the memory answered is one `write` to the addressed cell, in canonical form by the
invariant, so that it reads cell by cell as the rule says. -/
theorem storeWritesTheAddressedCellOnly : Obligations.StoreWritesTheAddressedCellOnly := by
  refine ⟨fun _ => decode_eq_instr_iff_eq_encode rfl, fun s l a b hinv hs ha0 ha1 => ?_,
    fun _ _ a _ hs ha => exec_store_of_invalid hs ((validAddress_eq_false_iff a).mpr ha),
    fun _ hd => exec_of_short rfl hd⟩
  have hvalid : validAddress a = true := (validAddress_iff a).mpr ⟨ha0, ha1⟩
  obtain ⟨hwf, -, -, -⟩ := hinv
  refine ⟨cellPort_eq_toInt hvalid, s.mem.write (cellPort a).toNat b,
    Memory.read_write_same hwf _ b, fun c hc => Memory.read_write_of_ne hwf hc b, ?_⟩
  rw [cellPort_toNat hvalid]
  exact exec_store_of_valid hs hvalid

/-- Settles O21: the pop of the address leaves room for the push of the cell. -/
theorem loadPushesTheAddressedCell : Obligations.LoadPushesTheAddressedCell :=
  ⟨fun _ => decode_eq_instr_iff_eq_encode rfl,
    fun _ _ a hinv hs ha0 ha1 => exec_load_of_valid hs ((validAddress_iff a).mpr ⟨ha0, ha1⟩)
      (hinv.room hs (List.cons_ne_nil a [])),
    fun _ _ a hs ha => exec_load_of_invalid hs ((validAddress_eq_false_iff a).mpr ha),
    fun _ hd => exec_of_empty rfl hd⟩

end Sys2Proof.Proofs
end

section
/-!
PROOFS. The three stack operations (45_stack_ops.md). One equation per outcome of an instruction
that has its operand; where the indexed element stands is then a fact about lists.
-/

namespace Sys2Proof.Machine

/-! ## An index on the stack the pop leaves (R130, R131) -/

/-- A word with `a` others above it is at a valid depth `a`. -/
theorem validIndex_of_append {p q : List Word} {v a : Word} (h : a.toInt = q.length) :
    validIndex a (p ++ v :: q).length = true := by
  rw [validIndex_iff, List.length_append, List.length_cons]
  omega

theorem exec_pick_of_append {s : State} {l : List Word} {a : Word} (hs : s.stack = l ++ [a]) :
    exec .pick s = peek a (s.withStack l) fun v => push v (s.withStack l) advance :=
  pop_of_append hs fun a s => peek a s fun v => push v s advance

theorem exec_pick_of_valid {s : State} {l : List Word} {a : Word} (hs : s.stack = l ++ [a])
    (ha : validIndex a l.length = true) (hroom : s.stackCapacity.isFull l.length = false) :
    exec .pick s = .next { s with stack := l ++ [elementAt a l], pc := s.pc + 1#32 } := by
  rw [exec_pick_of_append hs, peek_of_valid ha, push_of_room hroom, advance_eq]
  rfl

/-- R155: the pop comes before the index check. -/
theorem exec_pick_of_invalid {s : State} {l : List Word} {a : Word} (hs : s.stack = l ++ [a])
    (ha : validIndex a l.length = false) :
    exec .pick s = .next { s with stack := l, status := .halted .invalidStackIndex } :=
  (exec_pick_of_append hs).trans (peek_of_invalid ha _)

theorem exec_roll_of_append {s : State} {l : List Word} {a : Word} (hs : s.stack = l ++ [a]) :
    exec .roll s = rotateToTop a (s.withStack l) advance :=
  pop_of_append hs fun a s => rotateToTop a s advance

theorem exec_roll_of_valid {s : State} {l : List Word} {a : Word} (hs : s.stack = l ++ [a])
    (ha : validIndex a l.length = true) :
    exec .roll s = .next { s with stack := rotated a l, pc := s.pc + 1#32 } := by
  rw [exec_roll_of_append hs, rotateToTop_of_valid ha, advance_eq]
  rfl

/-- R155: the pop comes before the index check. -/
theorem exec_roll_of_invalid {s : State} {l : List Word} {a : Word} (hs : s.stack = l ++ [a])
    (ha : validIndex a l.length = false) :
    exec .roll s = .next { s with stack := l, status := .halted .invalidStackIndex } :=
  (exec_roll_of_append hs).trans (rotateToTop_of_invalid ha _)

theorem exec_drop_of_append {s : State} {l : List Word} {a : Word} (hs : s.stack = l ++ [a]) :
    exec .drop s = .next { s with stack := l, pc := s.pc + 1#32 } :=
  (pop_of_append hs _).trans (advance_eq _)

end Sys2Proof.Machine

namespace Sys2Proof.Proofs

open Sys2Proof.Machine

/-- Settles O26: the pop of the index leaves room for the push of the copy. -/
theorem pickCopiesTheElementAtTheDepth : Obligations.PickCopiesTheElementAtTheDepth := by
  refine ⟨fun _ => decode_eq_instr_iff_eq_encode rfl, fun s below above v a hinv hs ha => ?_,
    fun _ _ _ hs ha => exec_pick_of_invalid hs (validIndex_eq_false ha),
    fun _ hd => exec_of_empty rfl hd⟩
  have hroom := hinv.room hs (List.cons_ne_nil a [])
  rw [← List.append_cons] at hs hroom ⊢
  rw [exec_pick_of_valid hs (validIndex_of_append ha) hroom, elementAt_of_append ha]

/-- Settles O27: the rotation of a stack split at the indexed element. -/
theorem rollMovesTheElementAtTheDepthToTheTop :
    Obligations.RollMovesTheElementAtTheDepthToTheTop := by
  refine ⟨fun _ => decode_eq_instr_iff_eq_encode rfl, fun s below above v a hs ha => ?_,
    fun _ _ _ hs ha => exec_roll_of_invalid hs (validIndex_eq_false ha),
    fun _ hd => exec_of_empty rfl hd⟩
  rw [← List.append_cons] at hs
  rw [exec_roll_of_valid hs (validIndex_of_append ha), rotated_of_append ha]

/-- Settles O28. -/
theorem dropDiscardsTheTop : Obligations.DropDiscardsTheTop :=
  ⟨fun _ => decode_eq_instr_iff_eq_encode rfl, fun _ _ _ hs => exec_drop_of_append hs,
    fun _ hd => exec_of_empty rfl hd⟩

end Sys2Proof.Proofs
end

section
/-!
PROOFS. The reserved no-ops, halt, and the bytes outside the opcode map (46_reserved_halt.md).
-/

namespace Sys2Proof.Proofs

open Sys2Proof.Machine

/-- Settles O5: both reserved instructions are the default pc advance and nothing else. -/
theorem reservedNoOpsOnlyAdvanceThePc : Obligations.ReservedNoOpsOnlyAdvanceThePc :=
  ⟨fun _ => decode_eq_instr_iff_eq_encode rfl, fun _ => decode_eq_instr_iff_eq_encode rfl,
    fun s => ⟨advance_eq s, advance_eq s⟩⟩

/-- Settles O7: halt raises Ok, and raising a result makes no pc advance. -/
theorem haltEndsTheRunWithOk : Obligations.HaltEndsTheRunWithOk :=
  ⟨fun _ => decode_eq_instr_iff_eq_encode rfl, raise_eq .ok⟩

/-- Settles O8: the byte is fetched and decodes to ILLEGAL, whose step looks at no operand. -/
theorem unmappedByteEndsTheRunAsUnknown : Obligations.UnmappedByteEndsTheRunAsUnknown :=
  fun _ _ hs hpc hb hunmapped =>
    step_of_illegal hs (fetch_of_inRange hpc hb) (decode_of_unmapped hunmapped)

end Sys2Proof.Proofs
end

section
/-!
PROOFS. How a run ends and what it leaves (60_exceptions.md R150, R152). A step that ends the run
makes an end-of-run check or runs an instruction that raises: `step_ends` says which result each of
them gives and which stack it leaves, and nothing else is changed.
-/

namespace Sys2Proof.Machine

/-- R152: with which result an instruction can end the run in the state `s`, and the stack it leaves,
one case per row. -/
inductive EndsRun (s : State) : Tag → RunResult → List Word → Prop where
  | halt : EndsRun s (.instr .halt) .ok s.stack
  | illegal : EndsRun s .illegal .unknownInstruction s.stack
  | full {d : BitVec 4} (hfull : s.stackCapacity.isFull s.depth = true) :
      EndsRun s (.instr (.pushd d)) .allocationFailure s.stack
  | short {i : Instr} (hd : s.depth < tagPops (.instr i)) : EndsRun s (.instr i) .emptyStack []
  | divByZero {l : List Word} {a : Word} (hs : s.stack = l ++ [a, 0#32]) :
      EndsRun s (.instr .div) .divisionByZero l
  | loadInvalid {l : List Word} {a : Word} (hs : s.stack = l ++ [a])
      (ha : validAddress a = false) : EndsRun s (.instr .load) .invalidMemoryAddress l
  | storeInvalid {l : List Word} {a b : Word} (hs : s.stack = l ++ [b, a])
      (ha : validAddress a = false) : EndsRun s (.instr .store) .invalidMemoryAddress l
  | invalidIndex {i : Instr} {l : List Word} {a : Word} (hi : i = .pick ∨ i = .roll)
      (hs : s.stack = l ++ [a]) (ha : validIndex a l.length = false) :
      EndsRun s (.instr i) .invalidStackIndex l

/-- An instruction that ends the run is a case of `EndsRun`; a push after pops has room (R28). -/
theorem Effect.endsRun {i : Instr} {s t : State} {r : RunResult} (h : Effect i s t) (hinv : s.Inv)
    (hs : s.status = .running) (ht : t.status = .halted r) :
    ∃ l, t = (s.withStack l).withStatus (.halted r) ∧ EndsRun s (.instr i) r l := by
  cases h with
  | halts => cases ht; exact ⟨_, rfl, .halt⟩
  | full hfull => cases ht; exact ⟨_, rfl, .full hfull⟩
  | short hd => cases ht; exact ⟨_, rfl, .short hd⟩
  | noRoom hstack _ hne hfull =>
    rw [hinv.room hstack hne] at hfull
    cases hfull
  | divByZero hstack => cases ht; exact ⟨_, rfl, .divByZero hstack⟩
  | loadInvalid hstack ha => cases ht; exact ⟨_, rfl, .loadInvalid hstack ha⟩
  | storeInvalid hstack ha => cases ht; exact ⟨_, rfl, .storeInvalid hstack ha⟩
  | pickInvalid hstack ha => cases ht; exact ⟨_, rfl, .invalidIndex (.inl rfl) hstack ha⟩
  | rollInvalid hstack ha => cases ht; exact ⟨_, rfl, .invalidIndex (.inr rfl) hstack ha⟩
  | advances | pushes | binary | prtd | prtc | jmp | jzTaken | jzFallsThrough | load | store | pick
  | roll | drop => cases hs.symm.trans ht

/-- Everything a step that ends the run can do. -/
theorem step_ends {s t : State} {r : RunResult} (hinv : s.Inv) (h : step s = .next t)
    (ht : t.status = .halted r) :
    ∃ l, t = (s.withStack l).withStatus (.halted r) ∧
      ((fetch s = .ended r ∧ l = s.stack) ∨ ∃ b, fetch s = .byte b ∧ EndsRun s (decode b) r l) := by
  obtain ⟨hs, ⟨r', hf, rfl⟩ | ⟨b, i, hf, hd, heffect⟩ | ⟨b, hf, hd, rfl⟩⟩ := step_next h
  · cases ht
    exact ⟨s.stack, rfl, .inl ⟨hf, rfl⟩⟩
  · obtain ⟨l, rfl, hends⟩ := heffect.endsRun hinv hs ht
    exact ⟨l, rfl, .inr ⟨b, hf, hd ▸ hends⟩⟩
  · cases ht
    exact ⟨s.stack, rfl, .inr ⟨b, hf, hd ▸ .illegal⟩⟩

/-- R30: the end-of-run check has two results. -/
theorem result_of_fetch_ended {s : State} {r : RunResult} (h : fetch s = .ended r) :
    r = .ok ∨ r = .programCounterOutOfBounds := by
  unfold fetch at h
  split_ifs at h <;> cases h
  · exact .inl rfl
  · exact .inr rfl

/-! ## The explanation of a result (R150, R152) -/

/-- R150: the instructions that pop are those that can raise EmptyStack. -/
theorem raisedBy_emptyStack_of_pops {i : Instr} (h : 0 < tagPops (.instr i)) :
    raisedBy .emptyStack (.instr i) = true := by
  cases i with
  | nop | pushd | rsvc | rsvd | halt => cases h
  | _ => rfl

theorem EndsRun.raisedBy_tag {s : State} {tag : Tag} {r : RunResult} {l : List Word}
    (h : EndsRun s tag r l) : raisedBy r tag = true := by
  cases h with
  | short hd => exact raisedBy_emptyStack_of_pops (Nat.zero_lt_of_lt hd)
  | invalidIndex hi => rcases hi with rfl | rfl <;> rfl
  | _ => rfl

theorem EndsRun.stackShows_result {s : State} {tag : Tag} {r : RunResult} {l : List Word}
    (h : EndsRun s tag r l) (x : Status) : stackShows r ((s.withStack l).withStatus x) = true := by
  cases h with
  | full hfull => exact hfull
  | _ => rfl

/-- The fetch looks at the pc and the program, which an ended run keeps. -/
theorem fetch_withStack_withStatus (s : State) (l : List Word) (x : Status) :
    fetch ((s.withStack l).withStatus x) = fetch s := rfl

theorem explained_of_ended {s : State} {r : RunResult} (hs : s.status = .halted r)
    (hf : fetch s = .ended r) : s.explained = true := by
  simp [State.explained, hs, hf]

theorem explained_of_raised {s : State} {r : RunResult} {b : Byte} (hs : s.status = .halted r)
    (hf : fetch s = .byte b) (hraised : raisedBy r (decode b) = true)
    (hshows : stackShows r s = true) : s.explained = true := by
  simp [State.explained, hs, hf, hraised, hshows]

theorem step_explained {s t : State} (hinv : s.Inv) (h : step s = .next t) :
    t.explained = true := by
  cases ht : t.status with
  | running => exact explained_of_running ht
  | halted r =>
    obtain ⟨l, rfl, ⟨hf, -⟩ | ⟨b, hf, hends⟩⟩ := step_ends hinv h ht <;>
      rw [← fetch_withStack_withStatus s l (.halted r)] at hf
    · exact explained_of_ended rfl hf
    · exact explained_of_raised rfl hf hends.raisedBy_tag (hends.stackShows_result _)

end Sys2Proof.Machine

namespace Sys2Proof.Proofs

open Sys2Proof.Machine

/-- Settles O48: a step starts in a running state, so the result to explain is the one it gives
itself. -/
theorem stepKeepsTheResultExplained : Obligations.StepKeepsTheResultExplained :=
  fun _ _ hinv _ h => ⟨step_inv hinv h, step_explained hinv h⟩

/-- Settles O41: the end-of-run check and each row of `EndsRun` meet the clause of their result. -/
theorem stateLeftByARunResult : Obligations.StateLeftByARunResult := by
  intro s t r hinv _ h ht
  obtain ⟨l, rfl, ⟨hf, rfl⟩ | ⟨b, hf, hends⟩⟩ := step_ends hinv h ht <;>
    refine ⟨rfl, rfl, rfl, ?_⟩
  · rcases result_of_fetch_ended hf with rfl | rfl <;> simp
  · generalize hd : decode b = tag at hends
    cases hends with
    | halt | illegal | full => simp
    | short => simp [State.depth]
    | divByZero hs | invalidIndex _ hs => simp [hs]
    | loadInvalid hs | storeInvalid hs => simp [hf, hs, ← encode_of_decode hd, encode]

/-- Settles O39. -/
theorem haltedStateStopsByName : Obligations.HaltedStateStopsByName :=
  fun _ _ => step_of_halted

end Sys2Proof.Proofs
end

section
/-!
PROOFS. The start of a run and what the sequencer drives from it on (70_reset_and_hazards.md R180,
R181).
-/

namespace Sys2Proof.Machine

/-! ## The start of a run -/

/-- Reset is the start of the empty run. -/
theorem reset_eq_startRun : State.reset = startRun [] [] .unbounded := rfl

/-- R35: the first fetch is of `prog[0]`, where the program has one. -/
theorem fetch_startRun {program : List Byte} {b : Byte} (hb : program[0]? = some b)
    (values : List Word) (capacity : StackCapacity) :
    fetch (startRun program values capacity) = .byte b := by
  obtain ⟨hlength, -⟩ := List.getElem?_eq_some_iff.mp hb
  exact fetch_of_inRange ⟨le_refl 0, Int.ofNat_lt.mpr hlength⟩ hb

/-! ## What the sequencer drives -/

theorem PortRun.input_of_byte {s : State} {b : Byte} (hs : s.status = .running)
    (hf : fetch s = .byte b) (w : Word) :
    (PortRun.started s).input w = .issue b s.pc w := by
  simp [PortRun.input, hs, hf]

theorem PortRun.input_started_ne_start (w : Word) (s : State) :
    .start ≠ (PortRun.started s).input w := by
  rcases PortRun.input_started w s with ⟨hidle, -⟩ | ⟨b, -, -, hissue⟩
  · rw [hidle]; exact nofun
  · rw [hissue]; exact nofun

/-- Log entry 20: a run that is started stays started, and no step of it drives `start`. -/
theorem PortRun.start_not_mem_inputs (s : State) (later : List Word) :
    .start ∉ (PortRun.started s).inputs later := by
  induction later generalizing s with
  | nil => exact List.not_mem_nil
  | cons w later ih =>
    obtain ⟨t, hnext⟩ := PortRun.next_started w s
    rw [PortRun.inputs, hnext]
    exact List.not_mem_cons_of_ne_of_not_mem (PortRun.input_started_ne_start w s) (ih t)

end Sys2Proof.Machine

namespace Sys2Proof.Proofs

open Sys2Proof.Machine

/-- Settles O52: the start step leads to `startRun`, whose memory reads as R47 says and whose first
fetch is of `prog[0]`. -/
theorem sequencerAssertsStartBeforeTheFirstIssue :
    Obligations.SequencerAssertsStartBeforeTheFirstIssue := by
  intro program values capacity left w
  exact ⟨rfl, startRun program values capacity, PortRun.next_due w program values capacity left, rfl,
    rfl, rfl, rfl, rfl, rfl, fun _ => initMemory_read,
    fun _ w' hb => PortRun.input_of_byte rfl (fetch_startRun hb values capacity) w',
    PortRun.start_not_mem_inputs _⟩

/-- Settles O44: the start pc 0 is the length of the empty program. -/
theorem emptyProgramEndsAtOnceWithOk : Obligations.EmptyProgramEndsAtOnceWithOk :=
  ⟨fun _ _ => endsAtFetch_of_end rfl rfl, reset_eq_startRun⟩

/-- Settles O45: reset is a start with valid parameters. -/
theorem resetMeetsTheInvariant : Obligations.ResetMeetsTheInvariant :=
  ⟨startRun_inv ⟨Nat.zero_le _, rfl⟩ [], explained_of_running rfl⟩

end Sys2Proof.Proofs
end
